-- ==== Sys2Proof/Word.lean ====
section
/-! DEFINITION. The bit widths of the machine (00_scope.md R9, R10): all values are unsigned. -/

namespace Sys2Proof

/-- A byte: an opcode, a register index, or a cell of memory (R10). -/
abbrev Byte := BitVec 8

/-- A word: a register, a stack entry, a literal or an address operand (R9 `XLEN`, `ADDR_WIDTH`). -/
abbrev Word := BitVec 16

/-- The 17-bit program counter and fault information (R9 `PC_WIDTH`, 10_state.md R24, R31). -/
abbrev Pc := BitVec 17

end Sys2Proof
end

