-- ==== Sys2Proof/Syntax.lean ====
section
/-! DEFINITION. Instructions: one constructor for each row of the opcode map (30_encoding.md R83).
A register operand is the raw byte the encoding holds (R82), valid or not (R87). -/

namespace Sys2Proof

/-- The closed set of opcodes (R83). -/
inductive Opcode where
  | nop | hlt
  | moveLit | moveReg | moveRegMem | moveMemReg
  | add | sub | mul
  | pushLit | pushReg | pop
  | print
  | cmp | cmpNot | lt | gt
  | jmp | jmpZ | jmpNZ
  deriving DecidableEq, Repr

/-- The five formats (R81). -/
inductive Format where
  | n | r | rr | rw | w
  deriving DecidableEq, Repr

/-- An instruction with its operands in encoding order (R83). -/
inductive Instr where
  | nop
  | hlt
  | moveLit (reg : Byte) (lit16 : Word)
  | moveReg (dst src : Byte)
  | moveRegMem (reg : Byte) (addr16 : Word)
  | moveMemReg (reg : Byte) (addr16 : Word)
  | add (r1 r2 : Byte)
  | sub (r1 r2 : Byte)
  | mul (r1 r2 : Byte)
  | pushLit (lit16 : Word)
  | pushReg (reg : Byte)
  | pop (reg : Byte)
  | print (reg : Byte)
  | cmp (r1 r2 : Byte)
  | cmpNot (r1 r2 : Byte)
  | lt (r1 r2 : Byte)
  | gt (r1 r2 : Byte)
  | jmp (addr16 : Word)
  | jmpZ (addr16 : Word)
  | jmpNZ (addr16 : Word)
  deriving DecidableEq, Repr

/-- The opcode of an instruction. -/
def Instr.opcode : Instr → Opcode
  | .nop => .nop
  | .hlt => .hlt
  | .moveLit _ _ => .moveLit
  | .moveReg _ _ => .moveReg
  | .moveRegMem _ _ => .moveRegMem
  | .moveMemReg _ _ => .moveMemReg
  | .add _ _ => .add
  | .sub _ _ => .sub
  | .mul _ _ => .mul
  | .pushLit _ => .pushLit
  | .pushReg _ => .pushReg
  | .pop _ => .pop
  | .print _ => .print
  | .cmp _ _ => .cmp
  | .cmpNot _ _ => .cmpNot
  | .lt _ _ => .lt
  | .gt _ _ => .gt
  | .jmp _ => .jmp
  | .jmpZ _ => .jmpZ
  | .jmpNZ _ => .jmpNZ

end Sys2Proof
end

