-- ==== Sys2Proof/WellFormed.lean ====
section
/-! DEFINITION. Well-formedness of an instruction: each register operand names a register
(10_state.md R21, R23).  An ill-formed instruction still decodes (30_encoding.md R87) and runs: it
raises InvalidRegister.  Every literal and address value is legal (R87), so nothing else is checked. -/

namespace Sys2Proof

/-- The register index bytes of an instruction, in encoding order (R83). -/
def Instr.regOperands : Instr → List Byte
  | .nop => []
  | .hlt => []
  | .moveLit reg _ => [reg]
  | .moveReg dst src => [dst, src]
  | .moveRegMem reg _ => [reg]
  | .moveMemReg reg _ => [reg]
  | .add r1 r2 => [r1, r2]
  | .sub r1 r2 => [r1, r2]
  | .mul r1 r2 => [r1, r2]
  | .pushLit _ => []
  | .pushReg reg => [reg]
  | .pop reg => [reg]
  | .print reg => [reg]
  | .cmp r1 r2 => [r1, r2]
  | .cmpNot r1 r2 => [r1, r2]
  | .lt r1 r2 => [r1, r2]
  | .gt r1 r2 => [r1, r2]
  | .jmp _ => []
  | .jmpZ _ => []
  | .jmpNZ _ => []

/-- A register index byte that names a register: 0 to 8 (R21, R82). -/
abbrev ValidReg (r : Byte) : Prop := r.toNat ≤ 8

/-- Every register operand names a register. -/
abbrev Instr.WellFormed (i : Instr) : Prop := ∀ r ∈ i.regOperands, ValidReg r

end Sys2Proof
end

