-- ==== Sys2Proof/Decode.lean ====
section
/-! DEFINITION. Decoding and encoding (30_encoding.md).  `decodeOpcode` is the opcode map of R83;
`decode` reads one instruction from the front of a list of bytes, total, rejecting by name; `encode`
writes one out. -/

namespace Sys2Proof

/-- A word from its two bytes, low byte first in memory (20_memory.md R57). -/
def wordOfBytes (lo hi : Byte) : Word := (hi ++ lo : BitVec (8 + 8))

/-- Bits [7:0] of a word (R10). -/
def lowByte (w : Word) : Byte := w.extractLsb' 0 8

/-- Bits [15:8] of a word (R10). -/
def highByte (w : Word) : Byte := w.extractLsb' 8 8

/-- `Decode(b)` (R85): the opcode of the map of R83, or nothing for the 236 bytes of R86.  The byte
is matched whole (R84).  The values rest on the source's unaudited list (log 17). -/
def decodeOpcode (b : Byte) : Option Opcode :=
  match b.toNat with
  | 0x00 => some .nop
  | 0x01 => some .hlt
  | 0x10 => some .moveLit
  | 0x11 => some .moveReg
  | 0x12 => some .moveRegMem
  | 0x13 => some .moveMemReg
  | 0x14 => some .add
  | 0x15 => some .sub
  | 0x16 => some .mul
  | 0x1A => some .pushLit
  | 0x1B => some .pushReg
  | 0x1C => some .pop
  | 0x1D => some .print
  | 0x1E => some .cmp
  | 0x1F => some .cmpNot
  | 0x20 => some .lt
  | 0x21 => some .gt
  | 0x30 => some .jmp
  | 0x31 => some .jmpZ
  | 0x32 => some .jmpNZ
  | _ => none

/-- The operand bytes an opcode takes and the instruction they make (R81): the format, with the
constructor its operands are handed to in encoding order. -/
inductive Layout where
  | n (i : Instr)
  | r (mk : Byte → Instr)
  | rr (mk : Byte → Byte → Instr)
  | rw (mk : Byte → Word → Instr)
  | w (mk : Word → Instr)

/-- The operands of each opcode (R83); MoveReg's destination byte comes first (D6, log 6). -/
def Opcode.layout : Opcode → Layout
  | .nop => .n .nop
  | .hlt => .n .hlt
  | .moveLit => .rw .moveLit
  | .moveReg => .rr .moveReg
  | .moveRegMem => .rw .moveRegMem
  | .moveMemReg => .rw .moveMemReg
  | .add => .rr .add
  | .sub => .rr .sub
  | .mul => .rr .mul
  | .pushLit => .w .pushLit
  | .pushReg => .r .pushReg
  | .pop => .r .pop
  | .print => .r .print
  | .cmp => .rr .cmp
  | .cmpNot => .rr .cmpNot
  | .lt => .rr .lt
  | .gt => .rr .gt
  | .jmp => .w .jmp
  | .jmpZ => .w .jmpZ
  | .jmpNZ => .w .jmpNZ

def Layout.format : Layout → Format
  | .n _ => .n
  | .r _ => .r
  | .rr _ => .rr
  | .rw _ => .rw
  | .w _ => .w

/-- The format column of R83. -/
def Opcode.format (op : Opcode) : Format := op.layout.format

/-- The length in bytes of an instruction of each format (R81, R88). -/
def Format.length : Format → Nat
  | .n => 1
  | .r => 2
  | .rr => 3
  | .rw => 4
  | .w => 3

/-- The length column of R83: a function of the opcode alone (R88). -/
def Instr.length (i : Instr) : Nat := i.opcode.format.length

/-- What decoding the front of a list of bytes gives. -/
inductive DecodeResult where
  /-- An instruction, and the bytes after it. -/
  | ok (i : Instr) (rest : List Byte)
  /-- No byte at all. -/
  | missingOpcode
  /-- The first byte is no opcode (R86). -/
  | illegalOpcode (b : Byte)
  /-- The bytes end inside the instruction's operands. -/
  | missingOperand (op : Opcode)
  deriving DecidableEq, Repr

/-- The operands of one instruction, in encoding order (R80, R82): a register index is one byte, a
literal or an address two, low byte first. -/
def decodeOperands (op : Opcode) (bytes : List Byte) : DecodeResult :=
  match op.layout with
  | .n i => .ok i bytes
  | .r mk =>
    match bytes with
    | a :: rest => .ok (mk a) rest
    | [] => .missingOperand op
  | .rr mk =>
    match bytes with
    | a :: b :: rest => .ok (mk a b) rest
    | [_] => .missingOperand op
    | [] => .missingOperand op
  | .rw mk =>
    match bytes with
    | a :: lo :: hi :: rest => .ok (mk a (wordOfBytes lo hi)) rest
    | [_, _] => .missingOperand op
    | [_] => .missingOperand op
    | [] => .missingOperand op
  | .w mk =>
    match bytes with
    | lo :: hi :: rest => .ok (mk (wordOfBytes lo hi)) rest
    | [_] => .missingOperand op
    | [] => .missingOperand op

/-- Decode one instruction from the front of a list of bytes in address order (R80). -/
def decode : List Byte → DecodeResult
  | [] => .missingOpcode
  | b :: rest =>
    match decodeOpcode b with
    | some op => decodeOperands op rest
    | none => .illegalOpcode b

/-- The opcode byte column of R83. -/
def Opcode.byte : Opcode → Byte
  | .nop => 0x00
  | .hlt => 0x01
  | .moveLit => 0x10
  | .moveReg => 0x11
  | .moveRegMem => 0x12
  | .moveMemReg => 0x13
  | .add => 0x14
  | .sub => 0x15
  | .mul => 0x16
  | .pushLit => 0x1A
  | .pushReg => 0x1B
  | .pop => 0x1C
  | .print => 0x1D
  | .cmp => 0x1E
  | .cmpNot => 0x1F
  | .lt => 0x20
  | .gt => 0x21
  | .jmp => 0x30
  | .jmpZ => 0x31
  | .jmpNZ => 0x32

/-- The bytes of an instruction's operands (R81). -/
def Instr.operandBytes : Instr → List Byte
  | .nop => []
  | .hlt => []
  | .moveLit reg lit16 => [reg, lowByte lit16, highByte lit16]
  | .moveReg dst src => [dst, src]
  | .moveRegMem reg addr16 => [reg, lowByte addr16, highByte addr16]
  | .moveMemReg reg addr16 => [reg, lowByte addr16, highByte addr16]
  | .add r1 r2 => [r1, r2]
  | .sub r1 r2 => [r1, r2]
  | .mul r1 r2 => [r1, r2]
  | .pushLit lit16 => [lowByte lit16, highByte lit16]
  | .pushReg reg => [reg]
  | .pop reg => [reg]
  | .print reg => [reg]
  | .cmp r1 r2 => [r1, r2]
  | .cmpNot r1 r2 => [r1, r2]
  | .lt r1 r2 => [r1, r2]
  | .gt r1 r2 => [r1, r2]
  | .jmp addr16 => [lowByte addr16, highByte addr16]
  | .jmpZ addr16 => [lowByte addr16, highByte addr16]
  | .jmpNZ addr16 => [lowByte addr16, highByte addr16]

/-- The bytes of an instruction in address order (R80). -/
def encode (i : Instr) : List Byte := i.opcode.byte :: i.operandBytes

/-- The number of bytes of the longest instruction (R88). -/
def longestInstr : Nat := 4

/-- The bytes of a table word: its lowest `nbits` bits, byte 0 first, zero above, up to the longest
instruction. -/
def tableBytes (nbits w : Nat) : List Byte :=
  (List.range longestInstr).map fun k => BitVec.ofNat 8 ((w % 2 ^ nbits) / 2 ^ (8 * k))

/-- The instruction the decoder reads from a word numbered as spec/opcode_table.json numbers it. -/
def decodeTableWord (nbits w : Nat) : Option Instr :=
  match decode (tableBytes nbits w) with
  | .ok i _ => some i
  | .missingOpcode => none
  | .illegalOpcode _ => none
  | .missingOperand _ => none

end Sys2Proof
end

