-- ==== Sys2Proof/Config.lean ====
section
/-! DEFINITION. What is fixed for the machine (00_scope.md R9).  The spec leaves no value open
(93_implementation_defined.md settles U1 to U14), so there is no free value here. -/

namespace Sys2Proof.Config

/-- The largest MEM_SIZE (R9; 92_eei_decisions.md D2, log 2). -/
def maxMemSize : Nat := 65536

/-- The reset entry point (70_reset_and_hazards.md R231). -/
def entryPoint : Pc := 0

/-- What a byte of memory that no cell lists reads as: the zero of the zero-filled buffer
(20_memory.md R63; log 15). -/
def fillByte : Byte := 0

end Sys2Proof.Config
end

