-- ==== Sys2Proof/Machine/State.lean ====
section
/-! DEFINITION. The state of the machine (10_state.md) and its value right after reset (R35). -/

namespace Sys2Proof.Machine

/-- Memory (10_state.md R29, 20_memory.md R50): MEM_SIZE, and the bytes of [0, MEM_SIZE) that are not
`Config.fillByte`, by strictly rising address (`Memory.wf`; log 15). -/
structure Memory where
  size : Fin 65537
  cells : List Host.Cell
  deriving DecidableEq, Repr

/-- The run state (R30). -/
inductive RunStatus where
  | running | halted | faulted
  deriving DecidableEq, Repr

/-- The kinds a fault record holds (60_exceptions.md R201); `noFault` is NONE. -/
inductive FaultKind where
  | noFault | decodeError | outOfBounds | stackOverflow | stackUnderflow | invalidRegister
  deriving DecidableEq, Repr

/-- One event delivered to the output sink: the register index and the value (45_print.md R170). -/
structure PrintEvent where
  index : Byte
  value : Word
  deriving DecidableEq, Repr

/-- Everything the spec gives the machine (10_state.md R20 to R34): `regs` is x[0..8] (R0 to R7 and
ACC), `sp` counts the values pushed (0 to 256), and `stack[sp]` and above are stale (R28). -/
structure State where
  regs : Vector Word 9
  pc : Pc
  sp : Fin 257
  stack : Vector Word 256
  zf : Bool
  mem : Memory
  status : RunStatus
  faultKind : FaultKind
  faultInfo : Pc
  out : List PrintEvent
  deriving DecidableEq, Repr

/-- Reasons to stop outside the state machine of R30.  There is none: each of the five errors of
60_exceptions.md is a NEXT state in FAULTED with its fault record written (R203; log 1), so no step
ever answers a fault. -/
inductive Fault where
  deriving DecidableEq, Repr

/-- Refusals. -/
inductive Refusal where
  /-- An instruction that has no meaning yet; raised by an arm of `exec` only, and by none now.
  Safe: nothing can be proved about such an instruction. -/
  | notModelled (mnemonic : String)
  /-- Raised by the host's `State.load` on an image of more than 65536 bytes
  (70_reset_and_hazards.md R232, D2).  Safe: the block is not started. -/
  | imageTooLong
  deriving DecidableEq, Repr

/-- What a step or an operation answers. -/
abbrev Result := Host.Outcome State Fault Refusal

/-- The machine right after reset with no image loaded (R35, 70_reset_and_hazards.md R230).  MEM_SIZE is
the image length, and no image gives 0 (log 13); `State.load` loads one.  zf and the stack are 0 by
the spec's decisions D4 and D5 (log 4, 5). -/
def State.reset : State where
  regs := Vector.replicate 9 0
  pc := Config.entryPoint
  sp := 0
  stack := Vector.replicate 256 0
  zf := false
  mem := { size := 0, cells := [] }
  status := .running
  faultKind := .noFault
  faultInfo := 0
  out := []

end Sys2Proof.Machine
end

