-- ==== Sys2Proof/Machine/Ops.lean ====
section
/-! DEFINITION. The operations instructions share: registers, memory, the value stack, the output
sink, raising a fault, and the reset that leaves the FAULTED state.  An operation that can raise takes
what comes after it as an argument, which it does not run when it raises (00_scope.md R11). -/

namespace Sys2Proof.Machine

/-! ### Registers (10_state.md R20, R21) -/

/-- `x[i]`. -/
def State.readReg (s : State) (i : Fin 9) : Word := s.regs[i]

/-- `x[i] <- v`. -/
def State.writeReg (s : State) (i : Fin 9) (v : Word) : State := { s with regs := s.regs.set i v }

/-- The index of ACC (R21). -/
def accIndex : Fin 9 := 8

/-- `pc <- target` with a 16-bit target, zero-extended (R24, 47_jump.md R193). -/
def State.jumpTo (s : State) (target : Word) : State := { s with pc := target.setWidth 17 }

/-- `zf <- b` (R26). -/
def State.setZf (s : State) (b : Bool) : State := { s with zf := b }

/-! ### Faults (60_exceptions.md R203, R207) -/

/-- The code of a fault kind (R201; D9, log 9). -/
def FaultKind.code : FaultKind → BitVec 3
  | .noFault => 0
  | .decodeError => 1
  | .outOfBounds => 2
  | .stackOverflow => 3
  | .stackUnderflow => 4
  | .invalidRegister => 5

/-- The code of a run state (10_state.md R30; D12, log 9). -/
def RunStatus.code : RunStatus → BitVec 2
  | .running => 0
  | .halted => 1
  | .faulted => 2

/-- The trap entry, and all of it (R203): the record is written and status becomes FAULTED. -/
def State.raise (s : State) (kind : FaultKind) (info : Pc) : State :=
  { s with faultKind := kind, faultInfo := info, status := .faulted }

/-- `raise K(info)`: the instruction ends in the FAULTED state. -/
def raise (kind : FaultKind) (info : Pc) (s : State) : Result := .next (s.raise kind info)

/-- The only way out of FAULTED that keeps memory: the host's `reset()` (R207,
70_reset_and_hazards.md R230).  No instruction returns from a fault. -/
def State.hostReset (s : State) : State := { State.reset with mem := s.mem }

/-! ### Memory (20_memory.md) -/

/-- The byte a list of cells gives an address. -/
def cellLookup : List Host.Cell → Nat → Byte
  | [], _ => Config.fillByte
  | (k, b) :: rest, a => if k = a then b else cellLookup rest a

/-- Store a byte, keeping the addresses rising and listing no `Config.fillByte`. -/
def cellInsert : List Host.Cell → Nat → Byte → List Host.Cell
  | [], a, b => if b = Config.fillByte then [] else [(a, b)]
  | (k, c) :: rest, a, b =>
    if a < k then (if b = Config.fillByte then (k, c) :: rest else (a, b) :: (k, c) :: rest)
    else if a = k then (if b = Config.fillByte then rest else (k, b) :: rest)
    else (k, c) :: cellInsert rest a b

/-- The cells of an image placed at address `a`. -/
def cellsOfBytes : Nat → List Byte → List Host.Cell
  | _, [] => []
  | a, b :: rest =>
    if b = Config.fillByte then cellsOfBytes (a + 1) rest else (a, b) :: cellsOfBytes (a + 1) rest

/-- The canonical form: addresses strictly rise, lie inside memory, and no listed byte is the one an
unlisted address reads as. -/
abbrev Memory.wf (m : Memory) : Prop :=
  m.cells.Pairwise (fun c d => c.1 < d.1) ∧ ∀ c ∈ m.cells, c.1 < m.size.val ∧ c.2 ≠ Config.fillByte

/-- `mem[a]` for an address in bounds. -/
def Memory.byteAt (m : Memory) (a : Nat) : Byte := cellLookup m.cells a

/-- `mem[a] <- b` for an address in bounds. -/
def Memory.setByte (m : Memory) (a : Nat) (b : Byte) : Memory :=
  { m with cells := cellInsert m.cells a b }

/-- `MemRead(a, 1)` (R52); nothing where it raises OutOfBounds(a). -/
def Memory.readByte (m : Memory) (a : Nat) : Option Byte :=
  if a < m.size.val then some (m.byteAt a) else none

/-- `MemRead(a, 2)` (R54, R57): the bound is on `a + 1`, which does not wrap (D3, log 3). -/
def Memory.readWord (m : Memory) (a : Nat) : Option Word :=
  if a + 1 < m.size.val then some (wordOfBytes (m.byteAt a) (m.byteAt (a + 1))) else none

/-- `MemWrite(a, 1, b)` (R53); nothing where it raises OutOfBounds(a). -/
def Memory.writeByte (m : Memory) (a : Nat) (b : Byte) : Option Memory :=
  if a < m.size.val then some (m.setByte a b) else none

/-- `MemWrite(a, 2, v)` (R55): both bytes or, out of bounds, neither. -/
def Memory.writeWord (m : Memory) (a : Nat) (v : Word) : Option Memory :=
  if a + 1 < m.size.val then some ((m.setByte a (lowByte v)).setByte (a + 1) (highByte v)) else none

/-- A word read by an instruction; the address recorded is the access's start address (R54, R56). -/
def loadWord (a : Word) (s : State) (k : Word → Result) : Result :=
  match s.mem.readWord a.toNat with
  | some v => k v
  | none => raise .outOfBounds (a.setWidth 17) s

/-- A word written by an instruction (R55, R56). -/
def storeWord (a : Word) (v : Word) (s : State) : Result :=
  match s.mem.writeWord a.toNat v with
  | some m => .next { s with mem := m }
  | none => raise .outOfBounds (a.setWidth 17) s

/-! ### The value stack (44_stack.md R160, R161; layout of 10_state.md R28) -/

/-- `Push(v)`. -/
def push (v : Word) (s : State) : Result :=
  if h : s.sp.val < 256 then
    .next { s with stack := s.stack.set s.sp.val v, sp := ⟨s.sp.val + 1, by omega⟩ }
  else raise .stackOverflow (BitVec.ofNat 17 s.sp.val) s

/-- `Pop()`: what comes after gets the value and the state with sp lowered. -/
def pop (s : State) (k : Word → State → Result) : Result :=
  if h : 0 < s.sp.val then
    k s.stack[s.sp.val - 1] { s with sp := ⟨s.sp.val - 1, by omega⟩ }
  else raise .stackUnderflow (BitVec.ofNat 17 s.sp.val) s

/-! ### The output sink (45_print.md R170) -/

/-- `Emit(i, v)`: the event joins the end of `out` (10_state.md R33; D10, log 10). -/
def State.emit (s : State) (index : Byte) (v : Word) : State :=
  { s with out := s.out ++ [{ index := index, value := v }] }

end Sys2Proof.Machine
end

