-- ==== Sys2Proof/Machine/Operands.lean ====
section
/-! DEFINITION. Operand forms.  The hardware has three (30_encoding.md R82): a register index, checked
here; a literal, used as it is; an address, used by `loadWord`, `storeWord` and `State.jumpTo`. -/

namespace Sys2Proof.Machine

/-- `CheckReg(i)` (10_state.md R23): the register a byte names, 0 to 8, or nothing for 9 to 255. -/
def checkReg (r : Byte) : Option (Fin 9) := if h : r.toNat < 9 then some ⟨r.toNat, h⟩ else none

/-- A checked register operand: raises InvalidRegister(r) on an index byte over 8 (R23). -/
def withReg (r : Byte) (s : State) (k : Fin 9 → Result) : Result :=
  match checkReg r with
  | some i => k i
  | none => raise .invalidRegister (r.setWidth 17) s

/-- Two register operands, checked in encoding order (R23, 60_exceptions.md R205; D8, log 8). -/
def withRegs (r1 r2 : Byte) (s : State) (k : Fin 9 → Fin 9 → Result) : Result :=
  withReg r1 s fun i => withReg r2 s fun j => k i j

end Sys2Proof.Machine
end

