-- ==== Sys2Proof/Machine/Arithmetic.lean ====
section
/-! DEFINITION. Arithmetic (43_arithmetic.md): the operation on the integers the two registers hold,
reduced mod 2^16 into ACC (R153).  No flag is written. -/

namespace Sys2Proof.Machine

/-- (v1 + v2) mod 2^16 (R150). -/
def wrapAdd (v1 v2 : Word) : Word := BitVec.ofNat 16 (v1.toNat + v2.toNat)

/-- (v1 - v2) mod 2^16, the non-negative remainder (R151, 00_scope.md R10). -/
def wrapSub (v1 v2 : Word) : Word := BitVec.ofInt 16 ((v1.toNat : Int) - (v2.toNat : Int))

/-- (v1 × v2) mod 2^16 (R152). -/
def wrapMul (v1 v2 : Word) : Word := BitVec.ofNat 16 (v1.toNat * v2.toNat)

/-- Read two registers, combine, store into ACC (R153); both are read before ACC is written. -/
def intoAcc (op : Word → Word → Word) (r1 r2 : Byte) (s : State) : Result :=
  withRegs r1 r2 s fun i j => .next (s.writeReg accIndex (op (s.readReg i) (s.readReg j)))

/-- R150. -/
def execAdd (r1 r2 : Byte) (s : State) : Result := intoAcc wrapAdd r1 r2 s

/-- R151: the second operand is subtracted from the first. -/
def execSub (r1 r2 : Byte) (s : State) : Result := intoAcc wrapSub r1 r2 s

/-- R152. -/
def execMul (r1 r2 : Byte) (s : State) : Result := intoAcc wrapMul r1 r2 s

end Sys2Proof.Machine
end

