-- ==== Sys2Proof/Machine/Flags.lean ====
section
/-! DEFINITION. The computations of the one flag, zf (46_compare.md R184): the truth of an unsigned
comparison.  No other flag exists (10_state.md R26). -/

namespace Sys2Proof.Machine

/-- Cmp: v1 == v2 (R180). -/
def flagEq (v1 v2 : Word) : Bool := decide (v1.toNat = v2.toNat)

/-- CmpNot: v1 != v2 (R181). -/
def flagNe (v1 v2 : Word) : Bool := decide (v1.toNat ≠ v2.toNat)

/-- Lt: v1 < v2, unsigned (R182). -/
def flagLt (v1 v2 : Word) : Bool := decide (v1.toNat < v2.toNat)

/-- Gt: v1 > v2, unsigned (R183). -/
def flagGt (v1 v2 : Word) : Bool := decide (v1.toNat > v2.toNat)

end Sys2Proof.Machine
end

