-- ==== Sys2Proof/Machine/Compare.lean ====
section
/-! DEFINITION. Comparisons (46_compare.md): zf is overwritten with the truth of the comparison (R184). -/

namespace Sys2Proof.Machine

/-- Read two registers and overwrite zf with a flag computed from them (R184). -/
def intoZf (flag : Word → Word → Bool) (r1 r2 : Byte) (s : State) : Result :=
  withRegs r1 r2 s fun i j => .next (s.setZf (flag (s.readReg i) (s.readReg j)))

/-- R180. -/
def execCmp (r1 r2 : Byte) (s : State) : Result := intoZf flagEq r1 r2 s

/-- R181. -/
def execCmpNot (r1 r2 : Byte) (s : State) : Result := intoZf flagNe r1 r2 s

/-- R182. -/
def execLt (r1 r2 : Byte) (s : State) : Result := intoZf flagLt r1 r2 s

/-- R183. -/
def execGt (r1 r2 : Byte) (s : State) : Result := intoZf flagGt r1 r2 s

end Sys2Proof.Machine
end

