-- ==== Sys2Proof/Machine/Control.lean ====
section
/-! DEFINITION. NOP and HLT (41_nop_halt.md).  A meaning starts from the state after its operands are
fetched: pc is already past the instruction (40_cycle.md R113). -/

namespace Sys2Proof.Machine

/-- NOP has no effect (R130). -/
def execNop (s : State) : Result := .next s

/-- HLT enters HALTED; nothing else changes (R131). -/
def execHlt (s : State) : Result := .next { s with status := .halted }

end Sys2Proof.Machine
end

