-- ==== Sys2Proof/Machine/Jump.lean ====
section
/-! DEFINITION. Jumps (47_jump.md): absolute, unchecked (R193). -/

namespace Sys2Proof.Machine

/-- Take the jump, or go on past the operand already fetched (R191, R192). -/
def jumpIf (taken : Bool) (addr16 : Word) (s : State) : Result :=
  .next (if taken then s.jumpTo addr16 else s)

/-- R190. -/
def execJmp (addr16 : Word) (s : State) : Result := jumpIf true addr16 s

/-- R191: taken when zf = 1. -/
def execJmpZ (addr16 : Word) (s : State) : Result := jumpIf s.zf addr16 s

/-- R192: taken when zf = 0. -/
def execJmpNZ (addr16 : Word) (s : State) : Result := jumpIf (!s.zf) addr16 s

end Sys2Proof.Machine
end

