-- ==== Sys2Proof/Machine/Move.lean ====
section
/-! DEFINITION. Data movement (42_move.md). -/

namespace Sys2Proof.Machine

/-- reg ← lit16 (R140). -/
def execMoveLit (reg : Byte) (lit16 : Word) (s : State) : Result :=
  withReg reg s fun r => .next (s.writeReg r lit16)

/-- dst ← src (R141; the destination is the first operand by D6, log 6). -/
def execMoveReg (dst src : Byte) (s : State) : Result :=
  withRegs dst src s fun d t => .next (s.writeReg d (s.readReg t))

/-- reg ← word at memory[addr] (R142). -/
def execMoveRegMem (reg : Byte) (addr16 : Word) (s : State) : Result :=
  withReg reg s fun r => loadWord addr16 s fun v => .next (s.writeReg r v)

/-- memory[addr] ← word from reg (R143). -/
def execMoveMemReg (reg : Byte) (addr16 : Word) (s : State) : Result :=
  withReg reg s fun r => storeWord addr16 (s.readReg r) s

end Sys2Proof.Machine
end

