-- ==== Sys2Proof/Machine/Print.lean ====
section
/-! DEFINITION. Print (45_print.md). -/

namespace Sys2Proof.Machine

/-- Emit (index, value) to the output sink (R171). -/
def execPrint (reg : Byte) (s : State) : Result :=
  withReg reg s fun r => .next (s.emit reg (s.readReg r))

end Sys2Proof.Machine
end

