-- ==== Sys2Proof/Machine/Stack.lean ====
section
/-! DEFINITION. The value-stack instructions (44_stack.md). -/

namespace Sys2Proof.Machine

/-- R162. -/
def execPushLit (lit16 : Word) (s : State) : Result := push lit16 s

/-- R163: the register check comes before the stack check. -/
def execPushReg (reg : Byte) (s : State) : Result :=
  withReg reg s fun r => push (s.readReg r) s

/-- R164: the register check comes before the pop. -/
def execPop (reg : Byte) (s : State) : Result :=
  withReg reg s fun r => pop s fun v t => .next (t.writeReg r v)

end Sys2Proof.Machine
end

