-- ==== Sys2Proof/Machine/Dispatch.lean ====
section
/-! DEFINITION. `Execute` (40_cycle.md R114), with HLT's arm of R110 beside the others: one arm for
each instruction, no default. -/

namespace Sys2Proof.Machine

def exec (i : Instr) (s : State) : Host.Outcome State Fault Refusal :=
  match i with
  | .nop => Sys2Proof.Machine.execNop s
  | .hlt => Sys2Proof.Machine.execHlt s
  | .moveLit reg lit16 => Sys2Proof.Machine.execMoveLit reg lit16 s
  | .moveReg dst src => Sys2Proof.Machine.execMoveReg dst src s
  | .moveRegMem reg addr16 => Sys2Proof.Machine.execMoveRegMem reg addr16 s
  | .moveMemReg reg addr16 => Sys2Proof.Machine.execMoveMemReg reg addr16 s
  | .add r1 r2 => Sys2Proof.Machine.execAdd r1 r2 s
  | .sub r1 r2 => Sys2Proof.Machine.execSub r1 r2 s
  | .mul r1 r2 => Sys2Proof.Machine.execMul r1 r2 s
  | .pushLit lit16 => Sys2Proof.Machine.execPushLit lit16 s
  | .pushReg reg => Sys2Proof.Machine.execPushReg reg s
  | .pop reg => Sys2Proof.Machine.execPop reg s
  | .print reg => Sys2Proof.Machine.execPrint reg s
  | .cmp r1 r2 => Sys2Proof.Machine.execCmp r1 r2 s
  | .cmpNot r1 r2 => Sys2Proof.Machine.execCmpNot r1 r2 s
  | .lt r1 r2 => Sys2Proof.Machine.execLt r1 r2 s
  | .gt r1 r2 => Sys2Proof.Machine.execGt r1 r2 s
  | .jmp addr16 => Sys2Proof.Machine.execJmp addr16 s
  | .jmpZ addr16 => Sys2Proof.Machine.execJmpZ addr16 s
  | .jmpNZ addr16 => Sys2Proof.Machine.execJmpNZ addr16 s

end Sys2Proof.Machine
end

