-- ==== Sys2Proof/Machine/Fetch.lean ====
section
/-! DEFINITION. Fetching an instruction (40_cycle.md R110 to R113): the opcode byte, decode, then the
operands one at a time, each fetch that succeeds moving pc (R111, R112; D7, log 7). -/

namespace Sys2Proof.Machine

/-- `FetchByte()` (R111). -/
def fetchByte (s : State) (k : Byte → State → Result) : Result :=
  match s.mem.readByte s.pc.toNat with
  | some b => k b { s with pc := s.pc + 1 }
  | none => raise .outOfBounds s.pc s

/-- `FetchWord()` (R112): one access, so it consumes both bytes or none. -/
def fetchWord (s : State) (k : Word → State → Result) : Result :=
  match s.mem.readWord s.pc.toNat with
  | some w => k w { s with pc := s.pc + 2 }
  | none => raise .outOfBounds s.pc s

/-- The operand prologue of each format (R113). -/
def fetchOperands (l : Layout) (s : State) (k : Instr → State → Result) : Result :=
  match l with
  | .n i => k i s
  | .r mk => fetchByte s fun r s1 => k (mk r) s1
  | .rr mk => fetchByte s fun r1 s1 => fetchByte s1 fun r2 s2 => k (mk r1 r2) s2
  | .rw mk => fetchByte s fun r s1 => fetchWord s1 fun w s2 => k (mk r w) s2
  | .w mk => fetchWord s fun w s1 => k (mk w) s1

/-- The opcode byte, `Decode`, and the operands (R110). -/
def fetchInstr (s : State) (k : Instr → State → Result) : Result :=
  fetchByte s fun b s1 =>
    match decodeOpcode b with
    | some op => fetchOperands op.layout s1 k
    | none => raise .decodeError (b.setWidth 17) s1

/-- The bytes from address `a` on, at most `n`, up to the end of memory. -/
def Memory.bytesFrom (m : Memory) : Nat → Nat → List Byte
  | _, 0 => []
  | a, n + 1 => if a < m.size.val then m.byteAt a :: m.bytesFrom (a + 1) n else []

/-- The bytes at pc that the next instruction can be made of. -/
def State.fetchWindow (s : State) : List Byte := s.mem.bytesFrom s.pc.toNat longestInstr

/-- Memory with bytes placed at `a`, grown where they do not fit, up to 65536 bytes. -/
def Memory.place (m : Memory) (a : Nat) (bytes : List Byte) : Memory :=
  let grown : Memory := { m with size := ⟨min 65536 (max m.size.val (a + bytes.length)), by omega⟩ }
  (bytes.zipIdx a).foldl (fun m p => m.setByte p.2 p.1) grown

end Sys2Proof.Machine
end

