-- ==== Sys2Proof/Machine/Step.lean ====
section
/-! DEFINITION. One step (40_cycle.md R110), and the placing of an instruction where it is fetched. -/

namespace Sys2Proof.Machine

/-- The host's `step()` (10_state.md R36): one instruction while RUNNING (40_cycle.md R110), and
nothing in HALTED or FAULTED (log 1). -/
def step (s : State) : Host.Outcome State Fault Refusal :=
  match s.status with
  | .running => fetchInstr s exec
  | .halted => .next s
  | .faulted => .next s

/-- `s` with an instruction stored where the next step fetches: at pc, or at 0 where fewer than four
bytes follow pc in the address space; memory grows to hold it, and the block is put in RUNNING with an
empty fault record (log 14). -/
def State.withFetchWord (s : State) (nbits w : Nat) : State :=
  let pc := if s.pc.toNat + longestInstr ≤ Config.maxMemSize then s.pc else Config.entryPoint
  { s with
    pc := pc
    mem := s.mem.place pc.toNat (tableBytes nbits w)
    status := .running
    faultKind := .noFault
    faultInfo := 0 }

end Sys2Proof.Machine
end

