-- ==== Sys2Proof/Machine/HostPort.lean ====
section
/-! DEFINITION. The host's transactions between steps (10_state.md R36): load, run, inspect, dump.
`State.hostReset` is in Ops.lean and `step()` is `step`. -/

namespace Sys2Proof.Machine

/-- `load(image)` (R36, 20_memory.md R63, 70_reset_and_hazards.md R230, R232): memory becomes the image
and everything else its reset value; an image over 65536 bytes is refused (D2, log 2). -/
def State.load (image : List Byte) : Result :=
  if h : image.length ≤ Config.maxMemSize then
    .next { State.reset with
      mem := { size := ⟨image.length, Nat.lt_succ_of_le h⟩, cells := cellsOfBytes 0 image } }
  else .refused .imageTooLong

/-- `dump()` (20_memory.md R64): every byte in address order. -/
def State.dump (s : State) : List Byte := (List.range s.mem.size.val).map s.mem.byteAt

/-- What `inspect()` returns (R36), the run state and the fault kind by their codes. -/
structure Inspection where
  x : Vector Word 9
  zf : Bool
  sp : Fin 257
  pc : Pc
  status : BitVec 2
  faultKind : BitVec 3
  faultInfo : Pc
  deriving DecidableEq, Repr

/-- `inspect()` (R36). -/
def State.inspect (s : State) : Inspection where
  x := s.regs
  zf := s.zf
  sp := s.sp
  pc := s.pc
  status := s.status.code
  faultKind := s.faultKind.code
  faultInfo := s.faultInfo

/-- The observation of a run at its end (70_reset_and_hazards.md R234): what `inspect()` and `dump()`
return, and the events delivered. -/
structure Observation where
  inspection : Inspection
  mem : List Byte
  out : List PrintEvent
  deriving DecidableEq, Repr

/-- The observation a state gives (R234). -/
def State.observe (s : State) : Observation where
  inspection := s.inspect
  mem := s.dump
  out := s.out

/-- The first `n` steps of `run()` (40_cycle.md R116); a step does nothing once the run has ended, so
`run()` returns the state this reaches for every large enough `n`, and never returns if none ends. -/
def State.runFor (s : State) (n : Nat) : Result := Host.Core.run Sys2Proof.core n s

end Sys2Proof.Machine
end

