-- ==== Sys2Proof/Safety.lean ====
section
/-! DEFINITION. The terms claims use: what a run reaches and how it ends, the invariant of the machine's
state, what two states share, and the tables of 10_state.md R22 and 60_exceptions.md R206. -/

namespace Sys2Proof.Machine

/-! ### Runs -/

/-- Some number of steps leads from `s` to `t`. -/
def Reaches (s t : State) : Prop := ∃ n, s.runFor n = .next t

/-- `run()` from `s` returns with the state `t` (40_cycle.md R116, 70_reset_and_hazards.md R234). -/
def RunEndsIn (s t : State) : Prop := Reaches s t ∧ t.status ≠ .running

/-- A safe run: it never enters FAULTED. -/
def SafeRun (s : State) : Prop := ∀ t, Reaches s t → t.status ≠ .faulted

/-- The next step ends in FAULTED with this record, whatever else it leaves (92_eei_decisions.md D7 asks
claims about a fault to say no more). -/
def StepFaults (s : State) (kind : FaultKind) (info : Pc) : Prop :=
  ∃ t, step s = .next t ∧ t.status = .faulted ∧ t.faultKind = kind ∧ t.faultInfo = info

/-! ### The invariant -/

/-- What a fault record may hold, by kind (60_exceptions.md R201, R202). -/
def RecordFits : FaultKind → Nat → Prop
  | .noFault, info => info = 0
  | .decodeError, info => info ≤ 255 ∧ decodeOpcode (BitVec.ofNat 8 info) = none
  | .outOfBounds, info => info ≤ 65536
  | .stackOverflow, info => info = 256
  | .stackUnderflow, info => info = 0
  | .invalidRegister, info => 9 ≤ info ∧ info ≤ 255

/-- The invariant of every state a run reaches: memory is in its canonical form; pc is at most 65536
(10_state.md R24); there is a fault record exactly in FAULTED (R31), and it fits its kind; each event
names a register (45_print.md R170). -/
def State.Inv (s : State) : Prop :=
  s.mem.wf ∧ s.pc.toNat ≤ 65536 ∧ (s.status = .faulted ↔ s.faultKind ≠ .noFault) ∧
    RecordFits s.faultKind s.faultInfo.toNat ∧ ∀ e ∈ s.out, e.index.toNat ≤ 8

/-! ### What two states share -/

/-- Every register but `d` reads the same. -/
def SameRegsBut (d : Fin 9) (s t : State) : Prop := ∀ i, i ≠ d → t.readReg i = s.readReg i

/-- Every register reads the same. -/
def SameRegs (s t : State) : Prop := ∀ i, t.readReg i = s.readReg i

/-- Every address reads the same, in bounds or not. -/
def SameMem (s t : State) : Prop := ∀ a, t.mem.readByte a = s.mem.readByte a

/-- Every address but the `n` from `a` on reads the same, in bounds or not. -/
def SameMemBut (a n : Nat) (s t : State) : Prop :=
  ∀ b, b < a ∨ a + n ≤ b → t.mem.readByte b = s.mem.readByte b

/-- The value stack and its pointer are the same. -/
def SameStack (s t : State) : Prop := t.sp = s.sp ∧ t.stack = s.stack

/-- The run state and the fault record are the same. -/
def SameRun (s t : State) : Prop :=
  t.status = s.status ∧ t.faultKind = s.faultKind ∧ t.faultInfo = s.faultInfo

/-- Nothing but register `d` differs. -/
def OnlyReg (d : Fin 9) (s t : State) : Prop :=
  SameRegsBut d s t ∧ t.pc = s.pc ∧ t.zf = s.zf ∧ SameStack s t ∧ SameMem s t ∧ SameRun s t ∧
    t.out = s.out

/-- Nothing but zf differs. -/
def OnlyZf (s t : State) : Prop :=
  SameRegs s t ∧ t.pc = s.pc ∧ SameStack s t ∧ SameMem s t ∧ SameRun s t ∧ t.out = s.out

/-- Nothing but the `n` bytes of memory from `a` on differs. -/
def OnlyMem (a n : Nat) (s t : State) : Prop :=
  SameRegs s t ∧ t.pc = s.pc ∧ t.zf = s.zf ∧ SameStack s t ∧ SameMemBut a n s t ∧ SameRun s t ∧
    t.out = s.out

/-- Nothing but the value stack and its pointer differs. -/
def OnlyStack (s t : State) : Prop :=
  SameRegs s t ∧ t.pc = s.pc ∧ t.zf = s.zf ∧ SameMem s t ∧ SameRun s t ∧ t.out = s.out

/-- Nothing but the events delivered differs. -/
def OnlyOut (s t : State) : Prop :=
  SameRegs s t ∧ t.pc = s.pc ∧ t.zf = s.zf ∧ SameStack s t ∧ SameMem s t ∧ SameRun s t

/-- Nothing but pc differs. -/
def OnlyPc (s t : State) : Prop :=
  SameRegs s t ∧ t.zf = s.zf ∧ SameStack s t ∧ SameMem s t ∧ SameRun s t ∧ t.out = s.out

/-- The states differ at most in value-stack entries at index sp and above (10_state.md R28). -/
def SameButStale (s t : State) : Prop :=
  t = { s with stack := t.stack } ∧ ∀ i : Fin 256, i.val < s.sp.val → t.stack[i] = s.stack[i]

/-- Instructions run one after another, without their fetch. -/
def execAll : List Instr → State → Result
  | [], s => .next s
  | i :: is, s =>
    match exec i s with
    | .next t => execAll is t
    | .fault f => .fault f
    | .refused r => .refused r

end Sys2Proof.Machine

/-! ### Tables of the spec, by instruction -/

namespace Sys2Proof

/-- The index byte of the register an instruction writes when it completes (10_state.md R22). -/
def Instr.writesReg : Instr → Option Byte
  | .nop => none
  | .hlt => none
  | .moveLit reg _ => some reg
  | .moveReg dst _ => some dst
  | .moveRegMem reg _ => some reg
  | .moveMemReg _ _ => none
  | .add _ _ => some 8
  | .sub _ _ => some 8
  | .mul _ _ => some 8
  | .pushLit _ => none
  | .pushReg _ => none
  | .pop reg => some reg
  | .print _ => none
  | .cmp _ _ => none
  | .cmpNot _ _ => none
  | .lt _ _ => none
  | .gt _ _ => none
  | .jmp _ => none
  | .jmpZ _ => none
  | .jmpNZ _ => none

/-- The index bytes of the registers an instruction reads (10_state.md R22). -/
def Instr.readsRegs : Instr → List Byte
  | .nop => []
  | .hlt => []
  | .moveLit _ _ => []
  | .moveReg _ src => [src]
  | .moveRegMem _ _ => []
  | .moveMemReg reg _ => [reg]
  | .add r1 r2 => [r1, r2]
  | .sub r1 r2 => [r1, r2]
  | .mul r1 r2 => [r1, r2]
  | .pushLit _ => []
  | .pushReg reg => [reg]
  | .pop _ => []
  | .print reg => [reg]
  | .cmp r1 r2 => [r1, r2]
  | .cmpNot r1 r2 => [r1, r2]
  | .lt r1 r2 => [r1, r2]
  | .gt r1 r2 => [r1, r2]
  | .jmp _ => []
  | .jmpZ _ => []
  | .jmpNZ _ => []

open Machine in
/-- The faults an opcode can raise once its operands are fetched (60_exceptions.md R206). -/
def Opcode.mayRaise : Opcode → List FaultKind
  | .nop => []
  | .hlt => []
  | .moveLit => [.invalidRegister]
  | .moveReg => [.invalidRegister]
  | .moveRegMem => [.invalidRegister, .outOfBounds]
  | .moveMemReg => [.invalidRegister, .outOfBounds]
  | .add => [.invalidRegister]
  | .sub => [.invalidRegister]
  | .mul => [.invalidRegister]
  | .pushLit => [.stackOverflow]
  | .pushReg => [.invalidRegister, .stackOverflow]
  | .pop => [.invalidRegister, .stackUnderflow]
  | .print => [.invalidRegister]
  | .cmp => [.invalidRegister]
  | .cmpNot => [.invalidRegister]
  | .lt => [.invalidRegister]
  | .gt => [.invalidRegister]
  | .jmp => []
  | .jmpZ => []
  | .jmpNZ => []

end Sys2Proof
end

