-- ==== Sys2Proof/Certificates/Slice0/Obligations.lean ====
section
/-! DEFINITION. The statements for the provers.  Each docstring names the rule of spec/ it formalises, or
the sections and log entries it rests on.  A register operand is a byte `r` with `r.toNat = d.val` where
it names register `d` (10_state.md R21); the other bytes are InvalidRegisterIsRaised's.  `exec` starts
after the operands are fetched: pc is already past the instruction. -/

open Sys2Proof Sys2Proof.Machine

/-! ### Encoding -/

/-- Decoding an encoded instruction gives it back, whatever its operands and whatever bytes follow
(30_encoding.md sections 2 to 5). -/
def Obligations.DecodeOfEncode : Prop :=
  ∀ (i : Instr) (rest : List Byte), decode (encode i ++ rest) = .ok i rest

/-- Only its encoding decodes to an instruction: bytes have one meaning (30_encoding.md sections 2 to 5). -/
def Obligations.EncodeOfDecode : Prop :=
  ∀ (bytes : List Byte) (i : Instr) (rest : List Byte),
    decode bytes = .ok i rest → bytes = encode i ++ rest

/-- Each row of the opcode map, its bytes written out (30_encoding.md sections 2 to 4).  MoveReg's
destination byte first is the spec's own decision D6 (log 6). -/
def Obligations.EveryTableRowDecodes : Prop :=
  ∀ (a b lo hi : Byte) (rest : List Byte),
    decode (0x00 :: rest) = .ok .nop rest ∧
    decode (0x01 :: rest) = .ok .hlt rest ∧
    decode (0x10 :: a :: lo :: hi :: rest) = .ok (.moveLit a (hi ++ lo)) rest ∧
    decode (0x11 :: a :: b :: rest) = .ok (.moveReg a b) rest ∧
    decode (0x12 :: a :: lo :: hi :: rest) = .ok (.moveRegMem a (hi ++ lo)) rest ∧
    decode (0x13 :: a :: lo :: hi :: rest) = .ok (.moveMemReg a (hi ++ lo)) rest ∧
    decode (0x14 :: a :: b :: rest) = .ok (.add a b) rest ∧
    decode (0x15 :: a :: b :: rest) = .ok (.sub a b) rest ∧
    decode (0x16 :: a :: b :: rest) = .ok (.mul a b) rest ∧
    decode (0x1A :: lo :: hi :: rest) = .ok (.pushLit (hi ++ lo)) rest ∧
    decode (0x1B :: a :: rest) = .ok (.pushReg a) rest ∧
    decode (0x1C :: a :: rest) = .ok (.pop a) rest ∧
    decode (0x1D :: a :: rest) = .ok (.print a) rest ∧
    decode (0x1E :: a :: b :: rest) = .ok (.cmp a b) rest ∧
    decode (0x1F :: a :: b :: rest) = .ok (.cmpNot a b) rest ∧
    decode (0x20 :: a :: b :: rest) = .ok (.lt a b) rest ∧
    decode (0x21 :: a :: b :: rest) = .ok (.gt a b) rest ∧
    decode (0x30 :: lo :: hi :: rest) = .ok (.jmp (hi ++ lo)) rest ∧
    decode (0x31 :: lo :: hi :: rest) = .ok (.jmpZ (hi ++ lo)) rest ∧
    decode (0x32 :: lo :: hi :: rest) = .ok (.jmpNZ (hi ++ lo)) rest

/-- R85: decoding looks at the opcode byte alone, gives the opcode whose byte it is, and fails naming the
byte if there is none. -/
def Obligations.OpcodeDecodedFromItsByteAlone : Prop :=
  (∀ op : Opcode, decodeOpcode op.byte = some op) ∧
  (∀ b : Byte, (∀ op : Opcode, op.byte ≠ b) →
    decodeOpcode b = none ∧ ∀ rest, decode (b :: rest) = .illegalOpcode b) ∧
  (∀ (op : Opcode) (bytes : List Byte) (b : Byte), decode (op.byte :: bytes) ≠ .illegalOpcode b)

/-- R86: the 236 illegal opcode bytes, and the DecodeError each raises, with the byte as its info. -/
def Obligations.IllegalOpcodeRaisesDecodeError : Prop :=
  (∀ b : Byte, decodeOpcode b = none ↔
    (0x02 ≤ b.toNat ∧ b.toNat ≤ 0x0F) ∨ (0x17 ≤ b.toNat ∧ b.toNat ≤ 0x19) ∨
      (0x22 ≤ b.toNat ∧ b.toNat ≤ 0x2F) ∨ (0x33 ≤ b.toNat ∧ b.toNat ≤ 0xFF)) ∧
  ((List.range 256).countP fun n => (decodeOpcode (BitVec.ofNat 8 n)).isNone) = 236 ∧
  ∀ (s : State) (b : Byte), s.status = .running → s.mem.readByte s.pc.toNat = some b →
    decodeOpcode b = none → StepFaults s .decodeError (b.setWidth 17)

/-! ### The step -/

/-- Where the bytes at pc decode to an instruction, well-formed or not, the step is that instruction's
`exec` from the state with pc past its bytes (40_cycle.md sections 1 and 2). -/
def Obligations.StepRunsDecodedInstruction : Prop :=
  ∀ (s : State) (i : Instr) (rest : List Byte), s.status = .running →
    decode s.fetchWindow = .ok i rest →
      step s = exec i { s with pc := s.pc + BitVec.ofNat 17 i.length }

/-- An instruction placed where the next step fetches is the one it runs.  The placing is the model's own
(log 14). -/
def Obligations.PlacedWordRunsNext : Prop :=
  ∀ (s : State) (nbits w : Nat) (i : Instr), s.mem.wf → decodeTableWord nbits w = some i →
    step (s.withFetchWord nbits w) =
      exec i { s.withFetchWord nbits w with
        pc := (s.withFetchWord nbits w).pc + BitVec.ofNat 17 i.length }

/-- A fetch past the end of memory raises OutOfBounds with the address of the failing access: the opcode
byte's, or the operand's first byte (40_cycle.md section 1, 60_exceptions.md section 1; the recorded
address is the spec's own decision D9, a word fetched as one access its D7, log 7, 9). -/
def Obligations.FetchPastTheEndRaisesOutOfBounds : Prop :=
  ∀ s : State, s.status = .running →
    (s.mem.size.val ≤ s.pc.toNat → StepFaults s .outOfBounds s.pc) ∧
    ∀ op : Opcode, s.mem.readByte s.pc.toNat = some op.byte →
      (op.format = .r → s.mem.size.val ≤ s.pc.toNat + 1 →
        StepFaults s .outOfBounds (s.pc + 1)) ∧
      (op.format = .rr → s.mem.size.val ≤ s.pc.toNat + 1 →
        StepFaults s .outOfBounds (s.pc + 1)) ∧
      (op.format = .rr → s.mem.size.val = s.pc.toNat + 2 →
        StepFaults s .outOfBounds (s.pc + 2)) ∧
      (op.format = .rw → s.mem.size.val ≤ s.pc.toNat + 1 →
        StepFaults s .outOfBounds (s.pc + 1)) ∧
      (op.format = .rw → s.pc.toNat + 1 < s.mem.size.val → s.mem.size.val ≤ s.pc.toNat + 3 →
        StepFaults s .outOfBounds (s.pc + 2)) ∧
      (op.format = .w → s.mem.size.val ≤ s.pc.toNat + 2 →
        StepFaults s .outOfBounds (s.pc + 1))

/-- R238: every step of a RUNNING block completes. -/
def Obligations.EveryStepCompletes : Prop :=
  ∀ s : State, s.status = .running → ∃ t, step s = .next t

/-- No instruction ends in a fault or a refusal of the model: the five errors are next states (60_exceptions.md
section 1; log 1). -/
def Obligations.EveryInstructionAnswersNext : Prop :=
  ∀ (i : Instr) (s : State), ∃ t, exec i s = .next t

/-- pc after a step that does not raise: past the instruction, or a taken jump's target; the instruction
lies inside memory, so pc does not wrap (40_cycle.md section 3, an inference the spec marks as derived). -/
def Obligations.PcAfterCompletedStep : Prop :=
  ∀ (s t : State) (i : Instr) (rest : List Byte), s.status = .running →
    decode s.fetchWindow = .ok i rest → step s = .next t → t.status ≠ .faulted →
      s.pc.toNat + i.length ≤ s.mem.size.val ∧
      (∀ a, i = .jmp a → t.pc.toNat = a.toNat) ∧
      (∀ a, i = .jmpZ a → t.pc.toNat = if s.zf then a.toNat else s.pc.toNat + 3) ∧
      (∀ a, i = .jmpNZ a → t.pc.toNat = if s.zf then s.pc.toNat + 3 else a.toNat) ∧
      (i.opcode ∉ [.jmp, .jmpZ, .jmpNZ] → t.pc.toNat = s.pc.toNat + i.length)

/-- What one step that does not raise may change, row by row (40_cycle.md section 3, R118, which the spec
marks as derived), in a state whose memory is canonical. -/
def Obligations.StepChangesOnlyItsRow : Prop :=
  ∀ (s t : State) (i : Instr) (rest : List Byte), s.mem.wf → s.status = .running →
    decode s.fetchWindow = .ok i rest → step s = .next t → t.status ≠ .faulted →
      (∀ k : Fin 9, i.writesReg.map BitVec.toNat ≠ some k.val → t.readReg k = s.readReg k) ∧
      (i.opcode ≠ .moveMemReg → SameMem s t) ∧
      (∀ r a, i = .moveMemReg r a → SameMemBut a.toNat 2 s t) ∧
      (i.opcode ∉ [.pushLit, .pushReg, .pop] → SameStack s t) ∧
      (i.opcode ∈ [.pushLit, .pushReg] → t.sp.val = s.sp.val + 1 ∧
        ∀ k : Fin 256, k.val ≠ s.sp.val → t.stack[k] = s.stack[k]) ∧
      (i.opcode = .pop → t.sp.val + 1 = s.sp.val ∧ t.stack = s.stack) ∧
      (i.opcode ∉ [.cmp, .cmpNot, .lt, .gt] → t.zf = s.zf) ∧
      (i.opcode ≠ .print → t.out = s.out) ∧
      (i.opcode = .print → ∃ e, t.out = s.out ++ [e]) ∧
      (i.opcode ≠ .hlt → t.status = .running) ∧
      (i.opcode = .hlt → t.status = .halted) ∧
      t.faultKind = s.faultKind ∧ t.faultInfo = s.faultInfo

/-- How status moves in a step, and its codes (10_state.md section 5; the codes are the spec's own decision
D12, log 9). -/
def Obligations.StatusTransitions : Prop :=
  (∀ s t : State, step s = .next t →
    (s.status ≠ .running → t.status = s.status) ∧
    (s.status = .running → (t.status = .halted ↔ s.mem.readByte s.pc.toNat = some 0x01))) ∧
  RunStatus.running.code = 0 ∧ RunStatus.halted.code = 1 ∧ RunStatus.faulted.code = 2

/-- R213: HALTED is terminal; only the host's reset or load leaves it, to RUNNING. -/
def Obligations.HaltedIsTerminal : Prop :=
  (∀ (s : State) (n : Nat), s.status = .halted → s.runFor n = .next s) ∧
  (∀ s : State, s.hostReset.status = .running) ∧
  (∀ (image : List Byte) (s : State), State.load image = .next s → s.status = .running)

/-- A run has at most one end state, and what ended stays (40_cycle.md section 4, 70_reset_and_hazards.md
section 3). -/
def Obligations.RunEndsInOneState : Prop :=
  (∀ (s t u : State), RunEndsIn s t → RunEndsIn s u → t = u) ∧
  (∀ (s t : State) (n m : Nat), s.runFor n = .next t → t.status ≠ .running → n ≤ m →
    s.runFor m = .next t)

/-! ### Faults -/

/-- A fault is precise: nothing has changed but pc and the fault record, and pc is as the table says
(60_exceptions.md section 1, R204; this is the spec's own decision D7, log 7). -/
def Obligations.FaultsArePrecise : Prop :=
  ∀ s t : State, s.status = .running → step s = .next t → t.status = .faulted →
    t = { s with pc := t.pc, status := .faulted, faultKind := t.faultKind,
                 faultInfo := t.faultInfo } ∧
    (s.mem.size.val ≤ s.pc.toNat → t.faultKind = .outOfBounds ∧ t.pc = s.pc) ∧
    (∀ b, s.mem.readByte s.pc.toNat = some b → decodeOpcode b = none →
      t.faultKind = .decodeError ∧ t.pc = s.pc + 1) ∧
    (∀ op, decode s.fetchWindow = .missingOperand op →
      t.faultKind = .outOfBounds ∧ t.pc = t.faultInfo ∧ s.pc.toNat < t.pc.toNat ∧
        t.pc.toNat < s.pc.toNat + op.format.length) ∧
    (∀ i rest, decode s.fetchWindow = .ok i rest →
      t.faultKind ∈ i.opcode.mayRaise ∧ t.pc = s.pc + BitVec.ofNat 17 i.length)

/-- Which instruction can raise which fault once its operands are fetched, with what recorded, and that
each can (60_exceptions.md section 1, R202 and R206; the recorded values are the spec's own decision D9,
log 9). -/
def Obligations.InstructionsRaiseOnlyTheirFaults : Prop :=
  (∀ (i : Instr) (s t : State), s.status = .running → exec i s = .next t → t.status = .faulted →
    t.faultKind ∈ i.opcode.mayRaise ∧
    (t.faultKind = .invalidRegister →
      ∃ r ∈ i.regOperands, 8 < r.toNat ∧ t.faultInfo.toNat = r.toNat) ∧
    (t.faultKind = .outOfBounds →
      ∃ r a, (i = .moveRegMem r a ∨ i = .moveMemReg r a) ∧ s.mem.size.val ≤ a.toNat + 1 ∧
        t.faultInfo.toNat = a.toNat) ∧
    (t.faultKind = .stackOverflow → s.sp.val = 256 ∧ t.faultInfo.toNat = 256) ∧
    (t.faultKind = .stackUnderflow → s.sp.val = 0 ∧ t.faultInfo.toNat = 0)) ∧
  ∀ (op : Opcode) (kind : FaultKind), kind ∈ op.mayRaise →
    ∃ (i : Instr) (s t : State), i.opcode = op ∧ s.status = .running ∧ exec i s = .next t ∧
      t.status = .faulted ∧ t.faultKind = kind

/-- A register index byte over 8 raises InvalidRegister with that byte, the first bad one in encoding
order, before the instruction does anything else (10_state.md section 1, 60_exceptions.md section 1;
the order is the spec's own decision D8, log 8). -/
def Obligations.InvalidRegisterIsRaised : Prop :=
  ∀ (i : Instr) (s : State) (before after : List Byte) (r : Byte),
    i.regOperands = before ++ r :: after → (∀ q ∈ before, q.toNat ≤ 8) → 8 < r.toNat →
      exec i s = .next { s with status := .faulted, faultKind := .invalidRegister,
                                faultInfo := r.setWidth 17 }

/-- A word of data memory out of bounds raises OutOfBounds with the access's address, always at 0xFFFF,
and changes nothing else (20_memory.md section 2; the recorded address, the bound that does not wrap and
the unchanged state are the spec's own decisions D9, D3 and D7, log 3, 7, 9). -/
def Obligations.DataOutOfBoundsIsRaised : Prop :=
  ∀ (s : State) (r : Byte) (a : Word), r.toNat ≤ 8 →
    (s.mem.size.val ≤ a.toNat + 1 ∨ a = 0xFFFF) →
      exec (.moveRegMem r a) s = .next { s with status := .faulted, faultKind := .outOfBounds,
                                                faultInfo := a.setWidth 17 } ∧
      exec (.moveMemReg r a) s = .next { s with status := .faulted, faultKind := .outOfBounds,
                                                faultInfo := a.setWidth 17 }

/-- A push onto a full stack and a pop of an empty one raise, with sp as info, and change nothing else
(44_stack.md; the info and the unchanged state are the spec's own decisions D9 and D7, log 7, 9). -/
def Obligations.StackFaultsAreRaised : Prop :=
  ∀ (s : State) (r : Byte) (w : Word), r.toNat ≤ 8 →
    (s.sp.val = 256 →
      exec (.pushLit w) s = .next { s with status := .faulted, faultKind := .stackOverflow,
                                           faultInfo := 256 } ∧
      exec (.pushReg r) s = .next { s with status := .faulted, faultKind := .stackOverflow,
                                           faultInfo := 256 }) ∧
    (s.sp.val = 0 →
      exec (.pop r) s = .next { s with status := .faulted, faultKind := .stackUnderflow,
                                       faultInfo := 0 })

/-- The record a raise writes, as the host inspects it (60_exceptions.md section 1, R201 and R203; the codes
are the spec's own decisions D9 and D12, log 9). -/
def Obligations.RaiseWritesTheRecord : Prop :=
  (∀ (s : State) (kind : FaultKind) (info : Pc),
    ((s.raise kind info).inspect =
      { s.inspect with status := 2, faultKind := kind.code, faultInfo := info }) ∧
    (s.raise kind info).mem = s.mem ∧ (s.raise kind info).stack = s.stack ∧
    (s.raise kind info).out = s.out) ∧
  [FaultKind.noFault, .decodeError, .outOfBounds, .stackOverflow, .stackUnderflow,
    .invalidRegister].map FaultKind.code = [0, 1, 2, 3, 4, 5]

/-! ### The invariant -/

/-- The invariant holds right after reset (the memory of State.reset, with no image, is the model's choice,
log 13, and the invariant's canonical memory is the model's own, log 15). -/
def Obligations.ResetMeetsTheInvariant : Prop := State.reset.Inv

/-- Every step keeps the invariant: canonical memory, pc at most 65536, a fault record exactly in FAULTED
and fitting its kind, and events that name registers (10_state.md sections 2, 4, 5; 60_exceptions.md
section 1; the canonical form is the model's own, log 15). -/
def Obligations.StepKeepsTheInvariant : Prop :=
  ∀ s t : State, s.Inv → step s = .next t → t.Inv

/-- The host's transactions give states that meet the invariant (10_state.md section 8).  `load` and
`reset()` are the spec's own decision D13 (log 12), and the invariant's canonical memory is the model's
own (log 15). -/
def Obligations.HostTransactionsGiveTheInvariant : Prop :=
  (∀ (image : List Byte) (s : State), State.load image = .next s → s.Inv) ∧
  (∀ s : State, s.Inv → s.hostReset.Inv)

/-! ### NOP, HLT -/

/-- R130: NOP changes nothing but pc. -/
def Obligations.NopOnlyAdvancesPc : Prop :=
  (∀ s : State, exec .nop s = .next s) ∧
  ∀ s : State, s.status = .running → s.mem.readByte s.pc.toNat = some 0x00 →
    step s = .next { s with pc := s.pc + 1 }

/-- R131: HLT enters HALTED with pc past it and nothing else changed; after it a step does nothing. -/
def Obligations.HltEntersHalted : Prop :=
  (∀ s : State, exec .hlt s = .next { s with status := .halted }) ∧
  ∀ s : State, s.status = .running → s.mem.readByte s.pc.toNat = some 0x01 →
    step s = .next { s with pc := s.pc + 1, status := .halted } ∧
    step { s with pc := s.pc + 1, status := .halted } =
      .next { s with pc := s.pc + 1, status := .halted }

/-- A memory of zero bytes is a run of NOPs, and then the fetch at its end raises OutOfBounds there
(41_nop_halt.md, the corner case of R130, which the spec marks as derived). -/
def Obligations.ZeroImageRunsOffTheEnd : Prop :=
  ∀ (n : Nat) (s : State), State.load (List.replicate n 0) = .next s →
    s.runFor n = .next { s with pc := BitVec.ofNat 17 n } ∧
    s.runFor (n + 1) =
      .next { s with pc := BitVec.ofNat 17 n, status := .faulted, faultKind := .outOfBounds,
                     faultInfo := BitVec.ofNat 17 n }

/-! ### Data movement -/

/-- MoveLit completes on every register: it gets the literal and nothing else changes (42_move.md). -/
def Obligations.MoveLitLoadsTheLiteral : Prop :=
  ∀ (s : State) (r : Byte) (d : Fin 9) (w : Word), r.toNat = d.val →
    ∃ t, exec (.moveLit r w) s = .next t ∧ t.readReg d = w ∧ OnlyReg d s t

/-- R140, from fetch to effect: each way a MoveLit at pc can go. -/
def Obligations.MoveLitFromItsBytes : Prop :=
  ∀ s : State, s.status = .running → s.mem.readByte s.pc.toNat = some 0x10 →
    (s.mem.size.val ≤ s.pc.toNat + 1 → StepFaults s .outOfBounds (s.pc + 1)) ∧
    (s.pc.toNat + 1 < s.mem.size.val → s.mem.size.val ≤ s.pc.toNat + 3 →
      StepFaults s .outOfBounds (s.pc + 2)) ∧
    ∀ r lo hi : Byte, s.mem.readByte (s.pc.toNat + 1) = some r →
      s.mem.readByte (s.pc.toNat + 2) = some lo → s.mem.readByte (s.pc.toNat + 3) = some hi →
      (8 < r.toNat → StepFaults s .invalidRegister (r.setWidth 17)) ∧
      ∀ d : Fin 9, r.toNat = d.val →
        ∃ t, step s = .next t ∧ t.readReg d = hi ++ lo ∧ t.pc = s.pc + 4 ∧
          OnlyReg d { s with pc := s.pc + 4 } t

/-- MoveReg completes on every pair of registers: the first operand gets the second's value (42_move.md;
the operand order is the spec's own decision D6, log 6). -/
def Obligations.MoveRegCopiesSecondToFirst : Prop :=
  ∀ (s : State) (r1 r2 : Byte) (d x : Fin 9), r1.toNat = d.val → r2.toNat = x.val →
    ∃ t, exec (.moveReg r1 r2) s = .next t ∧ t.readReg d = s.readReg x ∧ OnlyReg d s t

/-- MoveRegMem completes on every register and every address in bounds, even or odd: the register gets
the little-endian word there (42_move.md, 20_memory.md sections 2 and 3). -/
def Obligations.MoveRegMemLoadsTheWord : Prop :=
  ∀ (s : State) (r : Byte) (d : Fin 9) (a : Word), r.toNat = d.val →
    a.toNat + 1 < s.mem.size.val →
      ∃ t lo hi, exec (.moveRegMem r a) s = .next t ∧ s.mem.readByte a.toNat = some lo ∧
        s.mem.readByte (a.toNat + 1) = some hi ∧ t.readReg d = hi ++ lo ∧ OnlyReg d s t

/-- R142, from fetch to effect: each way a MoveRegMem at pc can go. -/
def Obligations.MoveRegMemFromItsBytes : Prop :=
  ∀ s : State, s.status = .running → s.mem.readByte s.pc.toNat = some 0x12 →
    (s.mem.size.val ≤ s.pc.toNat + 1 → StepFaults s .outOfBounds (s.pc + 1)) ∧
    (s.pc.toNat + 1 < s.mem.size.val → s.mem.size.val ≤ s.pc.toNat + 3 →
      StepFaults s .outOfBounds (s.pc + 2)) ∧
    ∀ r lo hi : Byte, s.mem.readByte (s.pc.toNat + 1) = some r →
      s.mem.readByte (s.pc.toNat + 2) = some lo → s.mem.readByte (s.pc.toNat + 3) = some hi →
      (8 < r.toNat → StepFaults s .invalidRegister (r.setWidth 17)) ∧
      ∀ (d : Fin 9) (a : Word), r.toNat = d.val → a = hi ++ lo →
        (s.mem.size.val ≤ a.toNat + 1 → StepFaults s .outOfBounds (a.setWidth 17)) ∧
        ∀ l h : Byte, s.mem.readByte a.toNat = some l → s.mem.readByte (a.toNat + 1) = some h →
          ∃ t, step s = .next t ∧ t.readReg d = h ++ l ∧ t.pc = s.pc + 4 ∧
            OnlyReg d { s with pc := s.pc + 4 } t

/-- MoveMemReg completes on every register and every address in bounds, even or odd: the two bytes at the
address get the register's word, low byte first, and no other byte changes (42_move.md, 20_memory.md
sections 2 and 3), in a state whose memory is canonical. -/
def Obligations.MoveMemRegStoresTheWord : Prop :=
  ∀ (s : State) (r : Byte) (x : Fin 9) (a : Word), s.mem.wf → r.toNat = x.val →
    a.toNat + 1 < s.mem.size.val →
      ∃ t, exec (.moveMemReg r a) s = .next t ∧
        t.mem.readByte a.toNat = some ((s.readReg x).extractLsb' 0 8) ∧
        t.mem.readByte (a.toNat + 1) = some ((s.readReg x).extractLsb' 8 8) ∧
        OnlyMem a.toNat 2 s t

/-- R143, from fetch to effect: each way a MoveMemReg at pc can go, in a state whose memory is canonical. -/
def Obligations.MoveMemRegFromItsBytes : Prop :=
  ∀ s : State, s.mem.wf → s.status = .running → s.mem.readByte s.pc.toNat = some 0x13 →
    (s.mem.size.val ≤ s.pc.toNat + 1 → StepFaults s .outOfBounds (s.pc + 1)) ∧
    (s.pc.toNat + 1 < s.mem.size.val → s.mem.size.val ≤ s.pc.toNat + 3 →
      StepFaults s .outOfBounds (s.pc + 2)) ∧
    ∀ r lo hi : Byte, s.mem.readByte (s.pc.toNat + 1) = some r →
      s.mem.readByte (s.pc.toNat + 2) = some lo → s.mem.readByte (s.pc.toNat + 3) = some hi →
      (8 < r.toNat → StepFaults s .invalidRegister (r.setWidth 17)) ∧
      ∀ (x : Fin 9) (a : Word), r.toNat = x.val → a = hi ++ lo →
        (s.mem.size.val ≤ a.toNat + 1 →
          StepFaults s .outOfBounds (a.setWidth 17) ∧ ∀ t, step s = .next t → SameMem s t) ∧
        (a.toNat + 1 < s.mem.size.val →
          ∃ t, step s = .next t ∧
            t.mem.readByte a.toNat = some ((s.readReg x).extractLsb' 0 8) ∧
            t.mem.readByte (a.toNat + 1) = some ((s.readReg x).extractLsb' 8 8) ∧
            t.pc = s.pc + 4 ∧ OnlyMem a.toNat 2 { s with pc := s.pc + 4 } t)

/-! ### Arithmetic -/

/-- R153: Add, Sub and Mul complete on every pair of registers; ACC gets the result of the operation on
the integers they held, reduced into [0, 65535], and no flag and nothing else changes; the two index
bytes follow the opcode byte. -/
def Obligations.ArithmeticWrapsIntoAcc : Prop :=
  ∀ (s : State) (r1 r2 : Byte) (x y : Fin 9), r1.toNat = x.val → r2.toNat = y.val →
    (∃ t, exec (.add r1 r2) s = .next t ∧
      (t.readReg 8).toNat = ((s.readReg x).toNat + (s.readReg y).toNat) % 65536 ∧ OnlyReg 8 s t) ∧
    (∃ t, exec (.sub r1 r2) s = .next t ∧
      ((t.readReg 8).toNat : Int) =
        (((s.readReg x).toNat : Int) - ((s.readReg y).toNat : Int)) % 65536 ∧ OnlyReg 8 s t) ∧
    (∃ t, exec (.mul r1 r2) s = .next t ∧
      (t.readReg 8).toNat = ((s.readReg x).toNat * (s.readReg y).toNat) % 65536 ∧ OnlyReg 8 s t) ∧
    decode [0x14, r1, r2] = .ok (.add r1 r2) [] ∧ decode [0x15, r1, r2] = .ok (.sub r1 r2) [] ∧
    decode [0x16, r1, r2] = .ok (.mul r1 r2) []

/-! ### The value stack -/

/-- PushLit and PushReg complete while fewer than 256 values are held: the value goes on top and nothing
else changes (44_stack.md; that it lies in stack[sp] is the spec's own decision D5, log 5). -/
def Obligations.PushStoresOnTop : Prop :=
  ∀ (s : State) (w : Word) (r : Byte) (x : Fin 9) (h : s.sp.val < 256), r.toNat = x.val →
    (∃ t, exec (.pushLit w) s = .next t ∧ t.sp.val = s.sp.val + 1 ∧ t.stack[s.sp.val] = w ∧
      (∀ k : Fin 256, k.val ≠ s.sp.val → t.stack[k] = s.stack[k]) ∧ OnlyStack s t) ∧
    (∃ t, exec (.pushReg r) s = .next t ∧ t.sp.val = s.sp.val + 1 ∧
      t.stack[s.sp.val] = s.readReg x ∧
      (∀ k : Fin 256, k.val ≠ s.sp.val → t.stack[k] = s.stack[k]) ∧ OnlyStack s t)

/-- Pop completes while a value is held: the register gets the top one, sp counts one less, and nothing
else changes (44_stack.md; that it lies in stack[sp - 1] is the spec's own decision D5, log 5). -/
def Obligations.PopTakesFromTheTop : Prop :=
  ∀ (s : State) (r : Byte) (d : Fin 9) (h : 0 < s.sp.val), r.toNat = d.val →
    ∃ t, exec (.pop r) s = .next t ∧ t.readReg d = s.stack[s.sp.val - 1] ∧
      t.sp.val + 1 = s.sp.val ∧ t.stack = s.stack ∧ SameRegsBut d s t ∧ t.pc = s.pc ∧
      t.zf = s.zf ∧ SameMem s t ∧ SameRun s t ∧ t.out = s.out

/-- Values pushed within capacity come back in reverse order, seen in the events of a Print after each Pop,
with sp and what lies below as before; a Pop of an empty stack raises StackUnderflow, with sp as info
(44_stack.md, R161; the info and the unchanged sp are the spec's own decisions D9 and D7, log 7, 9). -/
def Obligations.PopsReturnPushesInReverse : Prop :=
  (∀ (s : State) (ws : List Word), s.sp.val + ws.length ≤ 256 →
    ∃ t, execAll (ws.map Instr.pushLit ++
        (List.replicate ws.length [Instr.pop 0, Instr.print 0]).flatten) s = .next t ∧
      t.out = s.out ++ ws.reverse.map (fun w => { index := 0, value := w }) ∧
      t.sp = s.sp ∧ t.status = s.status ∧
      ∀ k : Fin 256, k.val < s.sp.val → t.stack[k] = s.stack[k]) ∧
  (∀ (s : State) (r : Byte), r.toNat ≤ 8 → s.sp.val = 0 →
    ∃ t, exec (.pop r) s = .next t ∧ t.status = .faulted ∧ t.faultKind = .stackUnderflow ∧
      t.faultInfo = 0 ∧ t.sp = s.sp)

/-- The stale entries, at index sp and above, are unobservable: two states that differ in nothing else give
the same observation after any number of steps (10_state.md section 3, 93_implementation_defined.md U4). -/
def Obligations.StaleStackIsUnobservable : Prop :=
  ∀ (s s' t : State) (n : Nat), SameButStale s s' → s.runFor n = .next t →
    ∃ t', s'.runFor n = .next t' ∧ SameButStale t t' ∧ t'.observe = t.observe

/-! ### Print and the output sink -/

/-- Print completes on every register: one event, the index and the value, joins the end of those
delivered, and nothing else changes (45_print.md; the event's content is the spec's own decision D10,
log 10). -/
def Obligations.PrintEmitsOneEvent : Prop :=
  ∀ (s : State) (r : Byte) (x : Fin 9), r.toNat = x.val →
    ∃ t, exec (.print r) s = .next t ∧
      t.out = s.out ++ [{ index := r, value := s.readReg x }] ∧ OnlyOut s t

/-- The sink gives nothing back: with other events delivered before, a run goes the same way and delivers
the same further events (45_print.md, the sink). -/
def Obligations.SinkGivesNothingBack : Prop :=
  ∀ (s t : State) (earlier : List PrintEvent) (n : Nat), s.runFor n = .next t →
    s.out <+: t.out ∧
    { s with out := earlier ++ s.out }.runFor n = .next { t with out := earlier ++ t.out }

/-! ### Comparisons -/

/-- R184: each comparison completes on every pair of registers and overwrites zf with the truth of its
unsigned comparison; nothing else changes. -/
def Obligations.ComparisonsOverwriteZf : Prop :=
  ∀ (s : State) (r1 r2 : Byte) (x y : Fin 9), r1.toNat = x.val → r2.toNat = y.val →
    (∃ t, exec (.cmp r1 r2) s = .next t ∧
      (t.zf = true ↔ (s.readReg x).toNat = (s.readReg y).toNat) ∧ OnlyZf s t) ∧
    (∃ t, exec (.cmpNot r1 r2) s = .next t ∧
      (t.zf = true ↔ (s.readReg x).toNat ≠ (s.readReg y).toNat) ∧ OnlyZf s t) ∧
    (∃ t, exec (.lt r1 r2) s = .next t ∧
      (t.zf = true ↔ (s.readReg x).toNat < (s.readReg y).toNat) ∧ OnlyZf s t) ∧
    (∃ t, exec (.gt r1 r2) s = .next t ∧
      (t.zf = true ↔ (s.readReg x).toNat > (s.readReg y).toNat) ∧ OnlyZf s t)

/-- Gt with its operands exchanged is Lt; and of any two comparisons on good registers the second hides the
first, since it overwrites zf (46_compare.md, corner cases). -/
def Obligations.ComparisonsDoNotAccumulate : Prop :=
  (∀ (s : State) (r1 r2 : Byte), r1.toNat ≤ 8 → r2.toNat ≤ 8 →
    exec (.gt r1 r2) s = exec (.lt r2 r1) s) ∧
  ∀ (s : State) (i j : Instr), i.opcode ∈ [.cmp, .cmpNot, .lt, .gt] →
    j.opcode ∈ [.cmp, .cmpNot, .lt, .gt] → i.WellFormed → j.WellFormed →
      execAll [i, j] s = exec j s

/-- R26: the comparisons alone write zf, overwriting it, and JmpZ and JmpNZ alone read it: the others do
the same whatever it holds. -/
def Obligations.ZfWritersAndReaders : Prop :=
  (∀ (i : Instr) (s t : State), i.opcode ∉ [.cmp, .cmpNot, .lt, .gt] → exec i s = .next t →
    t.zf = s.zf) ∧
  (∀ (i : Instr) (s t : State) (b : Bool), i.opcode ∈ [.cmp, .cmpNot, .lt, .gt] →
    i.WellFormed → exec i s = .next t → exec i { s with zf := b } = .next t) ∧
  (∀ (i : Instr) (s t : State) (b : Bool), i.opcode ∉ [.jmpZ, .jmpNZ] → exec i s = .next t →
    ∃ u, exec i { s with zf := b } = .next u ∧ t = { u with zf := t.zf }) ∧
  (∀ (s : State) (a : Word),
    exec (.jmpZ a) s = (if s.zf = true then exec (.jmp a) s else .next s) ∧
    exec (.jmpNZ a) s = (if s.zf = false then exec (.jmp a) s else .next s))

/-! ### Jumps -/

/-- R193: the jumps complete in every state and set pc to the absolute target, zero-extended, unchecked and
of any alignment, and change nothing else; no other instruction sets pc; a target out of memory raises
OutOfBounds(target) at the next opcode fetch, and one inside it makes the byte there the next opcode; the
jump itself raises only where its own operand cannot be fetched. -/
def Obligations.JumpsAreAbsolute : Prop :=
  (∀ (s : State) (a : Word),
    (∃ t, exec (.jmp a) s = .next t ∧ t.pc.toNat = a.toNat ∧ OnlyPc s t) ∧
    (∃ t, exec (.jmpZ a) s = .next t ∧
      t.pc.toNat = (if s.zf then a.toNat else s.pc.toNat) ∧ OnlyPc s t) ∧
    (∃ t, exec (.jmpNZ a) s = .next t ∧
      t.pc.toNat = (if s.zf then s.pc.toNat else a.toNat) ∧ OnlyPc s t)) ∧
  (∀ (i : Instr) (s t : State), i.opcode ∉ [.jmp, .jmpZ, .jmpNZ] → exec i s = .next t →
    t.pc = s.pc) ∧
  (∀ (s t : State) (a : Word), s.status = .running → s.mem.size.val ≤ a.toNat →
    exec (.jmp a) s = .next t → StepFaults t .outOfBounds (a.setWidth 17)) ∧
  (∀ (s t : State) (a : Word) (b : Byte) (k : Byte → State → Result),
    s.mem.readByte a.toNat = some b → exec (.jmp a) s = .next t →
      fetchByte t k = k b { t with pc := t.pc + 1 }) ∧
  (∀ (s : State) (op : Opcode), op ∈ [.jmp, .jmpZ, .jmpNZ] → s.status = .running →
    s.mem.readByte s.pc.toNat = some op.byte → s.mem.size.val ≤ s.pc.toNat + 2 →
      StepFaults s .outOfBounds (s.pc + 1))

/-- Of JmpZ and JmpNZ to one target exactly one is taken (47_jump.md, corner cases). -/
def Obligations.OneConditionalJumpIsTaken : Prop :=
  ∀ (s : State) (a : Word),
    (exec (.jmpZ a) s = exec (.jmp a) s ∧ exec (.jmpNZ a) s = .next s) ∨
    (exec (.jmpNZ a) s = exec (.jmp a) s ∧ exec (.jmpZ a) s = .next s)

/-! ### Registers -/

/-- R20: the registers do not alias, none is hardwired, and each reads back the last value written. -/
def Obligations.RegistersReadBack : Prop :=
  ∀ (s : State) (i j : Fin 9) (v : Word),
    (s.writeReg i v).readReg i = v ∧ (j ≠ i → (s.writeReg i v).readReg j = s.readReg j)

/-- Which registers an instruction writes and reads (10_state.md section 1, R22): it changes none but the one
it names, or ACC; and states that agree on those it reads, and on everything but registers, go the same
way.  MoveReg's operand order is the spec's own decision D6 (log 6). -/
def Obligations.RegistersWrittenAndRead : Prop :=
  (∀ (i : Instr) (s t : State) (k : Fin 9), exec i s = .next t →
    i.writesReg.map BitVec.toNat ≠ some k.val → t.readReg k = s.readReg k) ∧
  (∀ (i : Instr) (s t : State) (regs' : Vector Word 9), s.status = .running →
    (∀ r ∈ i.readsRegs, ∀ k : Fin 9, r.toNat = k.val → regs'[k] = s.readReg k) →
    exec i s = .next t →
      ∃ u, exec i { s with regs := regs' } = .next u ∧ u = { t with regs := u.regs } ∧
        (t.status ≠ .faulted → ∀ k : Fin 9, i.writesReg.map BitVec.toNat = some k.val →
          u.readReg k = t.readReg k))

/-! ### Memory -/

/-- R60: what is written is read back, byte or word, and a write changes only the bytes it names; memory
canonical, in bounds. -/
def Obligations.MemoryReadsBackWrites : Prop :=
  ∀ (m : Memory) (a : Nat), m.wf →
    (∀ w : Word, a + 1 < m.size.val → ∃ m', m.writeWord a w = some m' ∧ m'.readWord a = some w ∧
      ∀ x, x ≠ a → x ≠ a + 1 → m'.readByte x = m.readByte x) ∧
    (∀ b : Byte, a < m.size.val → ∃ m', m.writeByte a b = some m' ∧ m'.readByte a = some b ∧
      ∀ x, x ≠ a → m'.readByte x = m.readByte x)

/-- R57: every word is little-endian, in data memory, read or written, and in an instruction's operands. -/
def Obligations.WordsAreLittleEndian : Prop :=
  (∀ (m : Memory) (a : Nat) (w : Word), m.readWord a = some w →
    ∃ lo hi : Byte, m.readByte a = some lo ∧ m.readByte (a + 1) = some hi ∧
      w.toNat = lo.toNat + 256 * hi.toNat) ∧
  (∀ (m m' : Memory) (a : Nat) (w : Word), m.wf → m.writeWord a w = some m' →
    ∃ lo hi : Byte, m'.readByte a = some lo ∧ m'.readByte (a + 1) = some hi ∧
      w.toNat = lo.toNat + 256 * hi.toNat) ∧
  (∀ (lo hi r : Byte) (bytes rest : List Byte) (op : Opcode) (i : Instr),
    (op.format = .w ∧ bytes = op.byte :: lo :: hi :: rest) ∨
      (op.format = .rw ∧ bytes = op.byte :: r :: lo :: hi :: rest) →
    decode bytes = .ok i rest →
    ∃ w : Word, w.toNat = lo.toNat + 256 * hi.toNat ∧
      i ∈ [.moveLit r w, .moveRegMem r w, .moveMemReg r w, .pushLit w, .jmp w, .jmpZ w, .jmpNZ w])

/-- The accessors' bounds (20_memory.md section 2): a byte is in bounds below MEM_SIZE; a word is when
its second byte is, with no alignment rule; a word at 0xFFFF never is (the spec's own decisions D2 and
D3, log 2, 3). -/
def Obligations.AccessBounds : Prop :=
  ∀ (m : Memory) (a : Nat) (b : Byte) (w : Word),
    (m.readByte a = none ↔ m.size.val ≤ a) ∧ (m.writeByte a b = none ↔ m.size.val ≤ a) ∧
    (m.readWord a = none ↔ m.size.val ≤ a + 1) ∧ (m.writeWord a w = none ↔ m.size.val ≤ a + 1) ∧
    m.readWord 0xFFFF = none ∧ m.writeWord 0xFFFF w = none

/-- MEM_SIZE never changes during a run (20_memory.md section 1). -/
def Obligations.MemSizeIsFixed : Prop :=
  ∀ (s t : State) (n : Nat), s.runFor n = .next t → t.mem.size = s.mem.size

/-- A store is seen by the next fetch of its bytes (20_memory.md section 6, R67, which the spec marks as
derived), memory canonical. -/
def Obligations.StoreIsSeenByTheNextFetch : Prop :=
  ∀ (s t : State) (r : Byte) (x : Fin 9) (a : Word) (k : Byte → State → Result), s.mem.wf →
    r.toNat = x.val → a.toNat + 1 < s.mem.size.val → exec (.moveMemReg r a) s = .next t →
      fetchByte { t with pc := a.setWidth 17 } k =
        k ((s.readReg x).extractLsb' 0 8) { t with pc := a.setWidth 17 + 1 } ∧
      fetchByte { t with pc := a.setWidth 17 + 1 } k =
        k ((s.readReg x).extractLsb' 8 8) { t with pc := a.setWidth 17 + 2 }

/-! ### Reset and the host's transactions -/

/-- R231: execution begins with pc = 0, where the first byte of the image is fetched. -/
def Obligations.EntryPointIsZero : Prop :=
  State.reset.pc = 0 ∧ (∀ s : State, s.hostReset.pc = 0) ∧
  (∀ (b : Byte) (rest : List Byte) (s : State) (k : Byte → State → Result),
    State.load (b :: rest) = .next s → s.pc = 0 ∧ fetchByte s k = k b { s with pc := 1 })

/-- The reset values (10_state.md section 7, 70_reset_and_hazards.md section 1); zf, the stack and the fault
record are the spec's own decisions D4, D5 and D9 (log 4, 5, 9), `reset()` keeping memory is its D13
(log 12), and State.reset's empty memory is the model's choice (log 13). -/
def Obligations.ResetValues : Prop :=
  ∀ s : State, s.hostReset.mem = s.mem ∧
    (∀ i, s.hostReset.readReg i = 0) ∧ s.hostReset.pc = 0 ∧ s.hostReset.sp.val = 0 ∧
    (∀ i : Fin 256, s.hostReset.stack[i] = 0) ∧ s.hostReset.zf = false ∧
    s.hostReset.status = .running ∧ s.hostReset.faultKind = .noFault ∧
    s.hostReset.faultInfo = 0 ∧ s.hostReset.out = [] ∧
    State.reset = { s.hostReset with mem := State.reset.mem } ∧ State.reset.mem.cells = []

/-- A loaded image is what dump gives back, MEM_SIZE is its length, and the rest is as after reset; an
image over 65536 bytes is refused (20_memory.md section 5, 70_reset_and_hazards.md sections 1 and 2; the
limit is the spec's own decision D2 and the transactions its D13, log 2, 12). -/
def Obligations.LoadThenDumpGivesTheImage : Prop :=
  (∀ image : List Byte, image.length ≤ 65536 →
    ∃ s, State.load image = .next s ∧ s.dump = image ∧ s.mem.size.val = image.length ∧
      s = { State.reset with mem := s.mem }) ∧
  (∀ image : List Byte, 65536 < image.length → State.load image = .refused .imageTooLong)
end

