-- ==== Sys2Proof/Laws/State.lean ====
section
/-! SUPPORT. Each field after each named update of the state, and reading registers after one. -/

namespace Sys2Proof.Machine

/-! ### State.writeReg -/

@[simp] theorem State.writeReg_regs (s : State) (i : Fin 9) (v : Word) :
    (s.writeReg i v).regs = s.regs.set i v := rfl

@[simp] theorem State.writeReg_pc (s : State) (i : Fin 9) (v : Word) :
    (s.writeReg i v).pc = s.pc := rfl

@[simp] theorem State.writeReg_sp (s : State) (i : Fin 9) (v : Word) :
    (s.writeReg i v).sp = s.sp := rfl

@[simp] theorem State.writeReg_stack (s : State) (i : Fin 9) (v : Word) :
    (s.writeReg i v).stack = s.stack := rfl

@[simp] theorem State.writeReg_zf (s : State) (i : Fin 9) (v : Word) :
    (s.writeReg i v).zf = s.zf := rfl

@[simp] theorem State.writeReg_mem (s : State) (i : Fin 9) (v : Word) :
    (s.writeReg i v).mem = s.mem := rfl

@[simp] theorem State.writeReg_status (s : State) (i : Fin 9) (v : Word) :
    (s.writeReg i v).status = s.status := rfl

@[simp] theorem State.writeReg_faultKind (s : State) (i : Fin 9) (v : Word) :
    (s.writeReg i v).faultKind = s.faultKind := rfl

@[simp] theorem State.writeReg_faultInfo (s : State) (i : Fin 9) (v : Word) :
    (s.writeReg i v).faultInfo = s.faultInfo := rfl

@[simp] theorem State.writeReg_out (s : State) (i : Fin 9) (v : Word) :
    (s.writeReg i v).out = s.out := rfl

/-! ### State.jumpTo -/

@[simp] theorem State.jumpTo_regs (s : State) (a : Word) :
    (s.jumpTo a).regs = s.regs := rfl

@[simp] theorem State.jumpTo_pc (s : State) (a : Word) :
    (s.jumpTo a).pc = a.setWidth 17 := rfl

@[simp] theorem State.jumpTo_sp (s : State) (a : Word) :
    (s.jumpTo a).sp = s.sp := rfl

@[simp] theorem State.jumpTo_stack (s : State) (a : Word) :
    (s.jumpTo a).stack = s.stack := rfl

@[simp] theorem State.jumpTo_zf (s : State) (a : Word) :
    (s.jumpTo a).zf = s.zf := rfl

@[simp] theorem State.jumpTo_mem (s : State) (a : Word) :
    (s.jumpTo a).mem = s.mem := rfl

@[simp] theorem State.jumpTo_status (s : State) (a : Word) :
    (s.jumpTo a).status = s.status := rfl

@[simp] theorem State.jumpTo_faultKind (s : State) (a : Word) :
    (s.jumpTo a).faultKind = s.faultKind := rfl

@[simp] theorem State.jumpTo_faultInfo (s : State) (a : Word) :
    (s.jumpTo a).faultInfo = s.faultInfo := rfl

@[simp] theorem State.jumpTo_out (s : State) (a : Word) :
    (s.jumpTo a).out = s.out := rfl

/-! ### State.setZf -/

@[simp] theorem State.setZf_regs (s : State) (b : Bool) :
    (s.setZf b).regs = s.regs := rfl

@[simp] theorem State.setZf_pc (s : State) (b : Bool) :
    (s.setZf b).pc = s.pc := rfl

@[simp] theorem State.setZf_sp (s : State) (b : Bool) :
    (s.setZf b).sp = s.sp := rfl

@[simp] theorem State.setZf_stack (s : State) (b : Bool) :
    (s.setZf b).stack = s.stack := rfl

@[simp] theorem State.setZf_zf (s : State) (b : Bool) :
    (s.setZf b).zf = b := rfl

@[simp] theorem State.setZf_mem (s : State) (b : Bool) :
    (s.setZf b).mem = s.mem := rfl

@[simp] theorem State.setZf_status (s : State) (b : Bool) :
    (s.setZf b).status = s.status := rfl

@[simp] theorem State.setZf_faultKind (s : State) (b : Bool) :
    (s.setZf b).faultKind = s.faultKind := rfl

@[simp] theorem State.setZf_faultInfo (s : State) (b : Bool) :
    (s.setZf b).faultInfo = s.faultInfo := rfl

@[simp] theorem State.setZf_out (s : State) (b : Bool) :
    (s.setZf b).out = s.out := rfl

/-! ### State.raise -/

@[simp] theorem State.raise_regs (s : State) (k : FaultKind) (info : Pc) :
    (s.raise k info).regs = s.regs := rfl

@[simp] theorem State.raise_pc (s : State) (k : FaultKind) (info : Pc) :
    (s.raise k info).pc = s.pc := rfl

@[simp] theorem State.raise_sp (s : State) (k : FaultKind) (info : Pc) :
    (s.raise k info).sp = s.sp := rfl

@[simp] theorem State.raise_stack (s : State) (k : FaultKind) (info : Pc) :
    (s.raise k info).stack = s.stack := rfl

@[simp] theorem State.raise_zf (s : State) (k : FaultKind) (info : Pc) :
    (s.raise k info).zf = s.zf := rfl

@[simp] theorem State.raise_mem (s : State) (k : FaultKind) (info : Pc) :
    (s.raise k info).mem = s.mem := rfl

@[simp] theorem State.raise_status (s : State) (k : FaultKind) (info : Pc) :
    (s.raise k info).status = .faulted := rfl

@[simp] theorem State.raise_faultKind (s : State) (k : FaultKind) (info : Pc) :
    (s.raise k info).faultKind = k := rfl

@[simp] theorem State.raise_faultInfo (s : State) (k : FaultKind) (info : Pc) :
    (s.raise k info).faultInfo = info := rfl

@[simp] theorem State.raise_out (s : State) (k : FaultKind) (info : Pc) :
    (s.raise k info).out = s.out := rfl

/-! ### State.emit -/

@[simp] theorem State.emit_regs (s : State) (r : Byte) (v : Word) :
    (s.emit r v).regs = s.regs := rfl

@[simp] theorem State.emit_pc (s : State) (r : Byte) (v : Word) :
    (s.emit r v).pc = s.pc := rfl

@[simp] theorem State.emit_sp (s : State) (r : Byte) (v : Word) :
    (s.emit r v).sp = s.sp := rfl

@[simp] theorem State.emit_stack (s : State) (r : Byte) (v : Word) :
    (s.emit r v).stack = s.stack := rfl

@[simp] theorem State.emit_zf (s : State) (r : Byte) (v : Word) :
    (s.emit r v).zf = s.zf := rfl

@[simp] theorem State.emit_mem (s : State) (r : Byte) (v : Word) :
    (s.emit r v).mem = s.mem := rfl

@[simp] theorem State.emit_status (s : State) (r : Byte) (v : Word) :
    (s.emit r v).status = s.status := rfl

@[simp] theorem State.emit_faultKind (s : State) (r : Byte) (v : Word) :
    (s.emit r v).faultKind = s.faultKind := rfl

@[simp] theorem State.emit_faultInfo (s : State) (r : Byte) (v : Word) :
    (s.emit r v).faultInfo = s.faultInfo := rfl

@[simp] theorem State.emit_out (s : State) (r : Byte) (v : Word) :
    (s.emit r v).out = s.out ++ [{ index := r, value := v }] := rfl

/-! ### State.hostReset -/

@[simp] theorem State.hostReset_regs (s : State) :
    s.hostReset.regs = State.reset.regs := rfl

@[simp] theorem State.hostReset_pc (s : State) :
    s.hostReset.pc = State.reset.pc := rfl

@[simp] theorem State.hostReset_sp (s : State) :
    s.hostReset.sp = State.reset.sp := rfl

@[simp] theorem State.hostReset_stack (s : State) :
    s.hostReset.stack = State.reset.stack := rfl

@[simp] theorem State.hostReset_zf (s : State) :
    s.hostReset.zf = State.reset.zf := rfl

@[simp] theorem State.hostReset_mem (s : State) :
    s.hostReset.mem = s.mem := rfl

@[simp] theorem State.hostReset_status (s : State) :
    s.hostReset.status = State.reset.status := rfl

@[simp] theorem State.hostReset_faultKind (s : State) :
    s.hostReset.faultKind = State.reset.faultKind := rfl

@[simp] theorem State.hostReset_faultInfo (s : State) :
    s.hostReset.faultInfo = State.reset.faultInfo := rfl

@[simp] theorem State.hostReset_out (s : State) :
    s.hostReset.out = State.reset.out := rfl

/-! ### Reading registers -/

@[simp] theorem State.readReg_writeReg (s : State) (i j : Fin 9) (v : Word) :
    (s.writeReg i v).readReg j = if j = i then v else s.readReg j := by
  simp only [State.readReg, State.writeReg, Fin.getElem_fin, Vector.getElem_set, Fin.ext_iff, eq_comm]

@[simp] theorem State.readReg_jumpTo (s : State) (a : Word) (j : Fin 9) :
    (s.jumpTo a).readReg j = s.readReg j := rfl

@[simp] theorem State.readReg_setZf (s : State) (b : Bool) (j : Fin 9) :
    (s.setZf b).readReg j = s.readReg j := rfl

@[simp] theorem State.readReg_raise (s : State) (k : FaultKind) (info : Pc) (j : Fin 9) :
    (s.raise k info).readReg j = s.readReg j := rfl

@[simp] theorem State.readReg_emit (s : State) (r : Byte) (v : Word) (j : Fin 9) :
    (s.emit r v).readReg j = s.readReg j := rfl

end Sys2Proof.Machine
end

