-- ==== Sys2Proof/Laws/Ops.lean ====
section
/-! SUPPORT. What each shared operation answers, once: cite these instead of unfolding it. -/

namespace Sys2Proof.Machine

/-! ### Register operands -/

theorem checkReg_valid {r : Byte} (h : ValidReg r) :
    checkReg r = some ⟨r.toNat, Nat.lt_succ_of_le h⟩ := by
  simp only [checkReg]
  exact dif_pos (Nat.lt_succ_of_le h)

theorem checkReg_invalid {r : Byte} (h : ¬ ValidReg r) : checkReg r = none := by
  simp only [checkReg]
  exact dif_neg fun h' => h (Nat.le_of_lt_succ h')

theorem withReg_valid {r : Byte} (h : ValidReg r) (s : State) (k : Fin 9 → Result) :
    withReg r s k = k ⟨r.toNat, Nat.lt_succ_of_le h⟩ := by
  simp [withReg, checkReg_valid h]

theorem withReg_invalid {r : Byte} (h : ¬ ValidReg r) (s : State) (k : Fin 9 → Result) :
    withReg r s k = .next (s.raise .invalidRegister (r.setWidth 17)) := by
  simp [withReg, checkReg_invalid h, raise]

/-- A register operand is good, and what comes after runs, or it raises InvalidRegister. -/
theorem withReg_cases (r : Byte) (s : State) (k : Fin 9 → Result) :
    (∃ h : ValidReg r, withReg r s k = k ⟨r.toNat, Nat.lt_succ_of_le h⟩) ∨
      (¬ ValidReg r ∧ withReg r s k = .next (s.raise .invalidRegister (r.setWidth 17))) := by
  by_cases h : ValidReg r
  · exact .inl ⟨h, withReg_valid h s k⟩
  · exact .inr ⟨h, withReg_invalid h s k⟩

theorem withRegs_valid {r1 r2 : Byte} (h1 : ValidReg r1) (h2 : ValidReg r2) (s : State)
    (k : Fin 9 → Fin 9 → Result) :
    withRegs r1 r2 s k = k ⟨r1.toNat, Nat.lt_succ_of_le h1⟩ ⟨r2.toNat, Nat.lt_succ_of_le h2⟩ := by
  simp [withRegs, withReg_valid h1, withReg_valid h2]

/-! ### Memory -/

/-- A word is read in bounds, or OutOfBounds is raised. -/
theorem loadWord_cases (a : Word) (s : State) (k : Word → Result) :
    (a.toNat + 1 < s.mem.size.val ∧
      loadWord a s k = k (wordOfBytes (s.mem.byteAt a.toNat) (s.mem.byteAt (a.toNat + 1)))) ∨
      (s.mem.size.val ≤ a.toNat + 1 ∧
        loadWord a s k = .next (s.raise .outOfBounds (a.setWidth 17))) := by
  by_cases h : a.toNat + 1 < s.mem.size.val
  · exact .inl ⟨h, by simp [loadWord, Memory.readWord, h]⟩
  · exact .inr ⟨Nat.le_of_not_lt h, by simp [loadWord, Memory.readWord, h, raise]⟩

/-- A word is written in bounds, or OutOfBounds is raised. -/
theorem storeWord_cases (a v : Word) (s : State) :
    (∃ m, s.mem.writeWord a.toNat v = some m ∧ storeWord a v s = .next { s with mem := m }) ∨
      (s.mem.size.val ≤ a.toNat + 1 ∧
        storeWord a v s = .next (s.raise .outOfBounds (a.setWidth 17))) := by
  by_cases h : a.toNat + 1 < s.mem.size.val
  · exact .inl ⟨_, if_pos h, by simp [storeWord, Memory.writeWord, h]⟩
  · exact .inr ⟨Nat.le_of_not_lt h, by simp [storeWord, Memory.writeWord, h, raise]⟩

/-! ### The value stack -/

/-- A push stores and counts, or raises StackOverflow. -/
theorem push_cases (v : Word) (s : State) :
    (∃ h : s.sp.val < 256, push v s =
      .next { s with stack := s.stack.set s.sp.val v, sp := ⟨s.sp.val + 1, by omega⟩ }) ∨
      (s.sp.val = 256 ∧ push v s = .next (s.raise .stackOverflow 256)) := by
  by_cases h : s.sp.val < 256
  · exact .inl ⟨h, by simp [push, h]⟩
  · have h256 : s.sp.val = 256 := by have := s.sp.isLt; omega
    exact .inr ⟨h256, by simp [push, raise, h256]⟩

/-- A pop hands on the top entry, or raises StackUnderflow. -/
theorem pop_cases (s : State) (k : Word → State → Result) :
    (∃ h : 0 < s.sp.val, pop s k =
      k s.stack[s.sp.val - 1] { s with sp := ⟨s.sp.val - 1, by omega⟩ }) ∨
      (s.sp.val = 0 ∧ pop s k = .next (s.raise .stackUnderflow 0)) := by
  by_cases h : 0 < s.sp.val
  · exact .inl ⟨h, by simp [pop, h]⟩
  · have h0 : s.sp.val = 0 := by omega
    exact .inr ⟨h0, by simp [pop, raise, h0]⟩

end Sys2Proof.Machine
end

