-- ==== Sys2Proof/Laws/Effect.lean ====
section
/-! SUPPORT. Everything one instruction can do, said once: `exec_effect` is the inversion lemma of `exec`,
to be cited instead of unfolding the meanings. -/

namespace Sys2Proof.Machine

/-- A byte that names register `d` passes the check. -/
theorem withReg_named {r : Byte} {d : Fin 9} (h : r.toNat = d.val) (s : State)
    (k : Fin 9 → Result) : withReg r s k = k d := by
  rw [withReg_valid (show ValidReg r by have := d.isLt; simp only [ValidReg]; omega)]
  congr 1
  exact Fin.ext h

/-- Two bytes that name registers pass the check. -/
theorem withRegs_named {r q : Byte} {d x : Fin 9} (hr : r.toNat = d.val) (hq : q.toNat = x.val)
    (s : State) (k : Fin 9 → Fin 9 → Result) : withRegs r q s k = k d x := by
  rw [withRegs, withReg_named hr, withReg_named hq]

/-- The states an instruction can lead to from `s`. -/
inductive Effect (i : Instr) (s : State) : State → Prop where
  | badRegister (r : Byte) (hr : r ∈ i.regOperands) (hv : ¬ ValidReg r) :
      Effect i s (s.raise .invalidRegister (r.setWidth 17))
  | dataOut (r : Byte) (a : Word) (hi : i = .moveRegMem r a ∨ i = .moveMemReg r a)
      (ha : s.mem.size.val ≤ a.toNat + 1) : Effect i s (s.raise .outOfBounds (a.setWidth 17))
  | stackFull (hi : i.opcode ∈ [.pushLit, .pushReg]) (h : s.sp.val = 256) :
      Effect i s (s.raise .stackOverflow 256)
  | stackEmpty (hi : i.opcode = .pop) (h : s.sp.val = 0) : Effect i s (s.raise .stackUnderflow 0)
  | nothing (hi : i = .nop) : Effect i s s
  | halt (hi : i = .hlt) : Effect i s { s with status := .halted }
  | writeReg (r : Byte) (d : Fin 9) (v : Word) (hw : i.writesReg = some r) (hd : r.toNat = d.val)
      (hp : i.opcode ≠ .pop) (hf : FaultKind.invalidRegister ∈ i.opcode.mayRaise) :
      Effect i s (s.writeReg d v)
  | popped (r : Byte) (d : Fin 9) (hi : i = .pop r) (hd : r.toNat = d.val) (h : 0 < s.sp.val) :
      Effect i s
        (State.writeReg { s with sp := ⟨s.sp.val - 1, by omega⟩ } d s.stack[s.sp.val - 1])
  | stored (r : Byte) (a : Word) (x : Fin 9) (m : Memory) (hi : i = .moveMemReg r a)
      (hx : r.toNat = x.val) (hm : s.mem.writeWord a.toNat (s.readReg x) = some m) :
      Effect i s { s with mem := m }
  | pushed (v : Word) (hi : i.opcode ∈ [.pushLit, .pushReg]) (h : s.sp.val < 256) :
      Effect i s { s with stack := s.stack.set s.sp.val v, sp := ⟨s.sp.val + 1, by omega⟩ }
  | printed (r : Byte) (x : Fin 9) (hi : i = .print r) (hx : r.toNat = x.val) :
      Effect i s (s.emit r (s.readReg x))
  | compared (b : Bool) (hi : i.opcode ∈ [.cmp, .cmpNot, .lt, .gt]) : Effect i s (s.setZf b)
  | jumped (a : Word) (hi : i = .jmp a ∨ (i = .jmpZ a ∧ s.zf = true) ∨ (i = .jmpNZ a ∧ s.zf = false)) :
      Effect i s (s.jumpTo a)
  | notJumped (a : Word) (hi : (i = .jmpZ a ∧ s.zf = false) ∨ (i = .jmpNZ a ∧ s.zf = true)) :
      Effect i s s

/-- A byte names a register or is refused by the check. -/
theorem named_or_invalid (r : Byte) : (∃ d : Fin 9, r.toNat = d.val) ∨ ¬ ValidReg r := by
  by_cases h : ValidReg r
  · exact .inl ⟨⟨r.toNat, Nat.lt_succ_of_le h⟩, rfl⟩
  · exact .inr h

/-- After one checked register operand, the effect is a bad register's or what comes after gives. -/
theorem withReg_effect {i : Instr} {s t : State} {r : Byte} {k : Fin 9 → Result}
    (h : withReg r s k = .next t) (hr : r ∈ i.regOperands)
    (hk : ∀ d : Fin 9, r.toNat = d.val → k d = .next t → Effect i s t) : Effect i s t := by
  rcases named_or_invalid r with ⟨d, hd⟩ | hv
  · rw [withReg_named hd] at h; exact hk d hd h
  · rw [withReg_invalid hv] at h; cases h; exact .badRegister r hr hv

/-- What an instruction leads to is one of its effects. -/
theorem exec_effect {i : Instr} {s t : State} (h : exec i s = .next t) : Effect i s t := by
  cases i with
  | nop => cases h; exact .nothing rfl
  | hlt => cases h; exact .halt rfl
  | moveLit r w =>
    refine withReg_effect h (by simp [Instr.regOperands]) fun d hd e => ?_
    cases e
    exact .writeReg r d w rfl hd (by simp [Instr.opcode]) (by simp [Instr.opcode, Opcode.mayRaise])
  | moveReg r q =>
    refine withReg_effect h (by simp [Instr.regOperands]) fun d hd e => ?_
    refine withReg_effect e (by simp [Instr.regOperands]) fun x hx e => ?_
    cases e
    exact .writeReg r d _ rfl hd (by simp [Instr.opcode]) (by simp [Instr.opcode, Opcode.mayRaise])
  | moveRegMem r a =>
    refine withReg_effect h (by simp [Instr.regOperands]) fun d hd e => ?_
    rcases loadWord_cases a s fun v => .next (s.writeReg d v) with ⟨-, e'⟩ | ⟨ha, e'⟩
    · rw [e'] at e; cases e
      exact .writeReg r d _ rfl hd (by simp [Instr.opcode]) (by simp [Instr.opcode, Opcode.mayRaise])
    · rw [e'] at e; cases e
      exact .dataOut r a (.inl rfl) ha
  | moveMemReg r a =>
    refine withReg_effect h (by simp [Instr.regOperands]) fun x hx e => ?_
    rcases storeWord_cases a (s.readReg x) s with ⟨m, hm, e'⟩ | ⟨ha, e'⟩
    · rw [e'] at e; cases e
      exact .stored r a x m rfl hx hm
    · rw [e'] at e; cases e
      exact .dataOut r a (.inr rfl) ha
  | add r q | sub r q | mul r q =>
    refine withReg_effect h (by simp [Instr.regOperands]) fun d hd e => ?_
    refine withReg_effect e (by simp [Instr.regOperands]) fun x hx e => ?_
    cases e
    exact .writeReg 8 8 _ rfl rfl (by simp [Instr.opcode]) (by simp [Instr.opcode, Opcode.mayRaise])
  | pushLit w =>
    rcases push_cases w s with ⟨hs, e⟩ | ⟨hs, e⟩
    · cases e.symm.trans h; exact .pushed w (by simp [Instr.opcode]) hs
    · cases e.symm.trans h; exact .stackFull (by simp [Instr.opcode]) hs
  | pushReg r =>
    refine withReg_effect h (by simp [Instr.regOperands]) fun x hx e => ?_
    rcases push_cases (s.readReg x) s with ⟨hs, e'⟩ | ⟨hs, e'⟩
    · cases e'.symm.trans e; exact .pushed _ (by simp [Instr.opcode]) hs
    · cases e'.symm.trans e; exact .stackFull (by simp [Instr.opcode]) hs
  | pop r =>
    refine withReg_effect h (by simp [Instr.regOperands]) fun d hd e => ?_
    rcases pop_cases s fun v t => .next (t.writeReg d v) with ⟨hs, e'⟩ | ⟨hs, e'⟩
    · cases e'.symm.trans e; exact .popped r d rfl hd hs
    · cases e'.symm.trans e; exact .stackEmpty rfl hs
  | print r =>
    refine withReg_effect h (by simp [Instr.regOperands]) fun x hx e => ?_
    cases e; exact .printed r x rfl hx
  | cmp r q | cmpNot r q | lt r q | gt r q =>
    refine withReg_effect h (by simp [Instr.regOperands]) fun d hd e => ?_
    refine withReg_effect e (by simp [Instr.regOperands]) fun x hx e => ?_
    cases e; exact .compared _ (by simp [Instr.opcode])
  | jmp a => cases h; exact .jumped a (.inl rfl)
  | jmpZ a =>
    cases hz : s.zf <;> simp only [exec, execJmpZ, jumpIf, hz] at h <;> cases h
    · exact .notJumped a (.inl ⟨rfl, hz⟩)
    · exact .jumped a (.inr (.inl ⟨rfl, hz⟩))
  | jmpNZ a =>
    cases hz : s.zf <;> simp only [exec, execJmpNZ, jumpIf, hz] at h <;> cases h
    · exact .jumped a (.inr (.inr ⟨rfl, hz⟩))
    · exact .notJumped a (.inr ⟨rfl, hz⟩)

end Sys2Proof.Machine
end

