-- ==== Sys2Proof/Laws/Decode.lean ====
section
/-! SUPPORT. Bytes and words, and the two directions of the opcode map. -/

namespace Sys2Proof

/-- The value of a word from its bytes (20_memory.md R57). -/
theorem toNat_wordOfBytes (lo hi : Byte) :
    (wordOfBytes lo hi).toNat = lo.toNat + 256 * hi.toNat := by
  have h : (wordOfBytes lo hi).toNat = hi.toNat <<< 8 ||| lo.toNat := BitVec.toNat_append hi lo
  rw [h, ← Nat.shiftLeft_add_eq_or_of_lt lo.isLt]
  omega

theorem toNat_lowByte (w : Word) : (lowByte w).toNat = w.toNat % 256 := by
  simp [lowByte]

theorem toNat_highByte (w : Word) : (highByte w).toNat = w.toNat / 256 := by
  have := w.isLt
  simp only [highByte, BitVec.extractLsb'_toNat, Nat.shiftRight_eq_div_pow]
  omega

@[simp] theorem lowByte_wordOfBytes (lo hi : Byte) : lowByte (wordOfBytes lo hi) = lo := by
  apply BitVec.eq_of_toNat_eq
  have := lo.isLt
  rw [toNat_lowByte, toNat_wordOfBytes]
  omega

@[simp] theorem highByte_wordOfBytes (lo hi : Byte) : highByte (wordOfBytes lo hi) = hi := by
  apply BitVec.eq_of_toNat_eq
  have := lo.isLt
  rw [toNat_highByte, toNat_wordOfBytes]
  omega

@[simp] theorem wordOfBytes_low_high (w : Word) : wordOfBytes (lowByte w) (highByte w) = w := by
  apply BitVec.eq_of_toNat_eq
  rw [toNat_wordOfBytes, toNat_lowByte, toNat_highByte]
  omega

/-- Each opcode's byte decodes to it. -/
@[simp] theorem decodeOpcode_byte (op : Opcode) : decodeOpcode op.byte = some op := by
  cases op <;> rfl

/-- A byte that decodes is its opcode's byte. -/
theorem byte_of_decodeOpcode {b : Byte} {op : Opcode} (h : decodeOpcode b = some op) :
    op.byte = b := by
  have all : ∀ b : Byte, ∀ op, decodeOpcode b = some op → op.byte = b := by
    intro b
    revert b
    decide
  exact all b op h

/-! ### What an opcode's layout makes: the instruction's opcode and its bytes -/

theorem layout_n {op : Opcode} {i : Instr} (h : op.layout = .n i) :
    i.opcode = op ∧ encode i = [op.byte] := by
  cases op <;> cases h <;> exact ⟨rfl, rfl⟩

theorem layout_r {op : Opcode} {mk : Byte → Instr} (h : op.layout = .r mk) (a : Byte) :
    (mk a).opcode = op ∧ encode (mk a) = [op.byte, a] := by
  cases op <;> cases h <;> exact ⟨rfl, rfl⟩

theorem layout_rr {op : Opcode} {mk : Byte → Byte → Instr} (h : op.layout = .rr mk) (a b : Byte) :
    (mk a b).opcode = op ∧ encode (mk a b) = [op.byte, a, b] := by
  cases op <;> cases h <;> exact ⟨rfl, rfl⟩

theorem layout_rw {op : Opcode} {mk : Byte → Word → Instr} (h : op.layout = .rw mk) (a : Byte)
    (w : Word) : (mk a w).opcode = op ∧ encode (mk a w) = [op.byte, a, lowByte w, highByte w] := by
  cases op <;> cases h <;> exact ⟨rfl, rfl⟩

theorem layout_w {op : Opcode} {mk : Word → Instr} (h : op.layout = .w mk) (w : Word) :
    (mk w).opcode = op ∧ encode (mk w) = [op.byte, lowByte w, highByte w] := by
  cases op <;> cases h <;> exact ⟨rfl, rfl⟩

end Sys2Proof
end

