-- ==== Sys2Proof/Laws/Fetch.lean ====
section
/-! SUPPORT. What fetching answers: each access, a whole instruction, and the step. -/

namespace Sys2Proof.Machine

/-! ### One access -/

theorem fetchByte_in {s : State} (h : s.pc.toNat < s.mem.size.val) (k : Byte → State → Result) :
    fetchByte s k = k (s.mem.byteAt s.pc.toNat) { s with pc := s.pc + 1 } := by
  simp [fetchByte, Memory.readByte, h]

theorem fetchByte_out {s : State} (h : s.mem.size.val ≤ s.pc.toNat) (k : Byte → State → Result) :
    fetchByte s k = .next (s.raise .outOfBounds s.pc) := by
  simp [fetchByte, Memory.readByte, Nat.not_lt.2 h, raise]

theorem fetchWord_in {s : State} (h : s.pc.toNat + 1 < s.mem.size.val)
    (k : Word → State → Result) :
    fetchWord s k =
      k (wordOfBytes (s.mem.byteAt s.pc.toNat) (s.mem.byteAt (s.pc.toNat + 1)))
        { s with pc := s.pc + 2 } := by
  simp [fetchWord, Memory.readWord, h]

theorem fetchWord_out {s : State} (h : s.mem.size.val ≤ s.pc.toNat + 1)
    (k : Word → State → Result) : fetchWord s k = .next (s.raise .outOfBounds s.pc) := by
  simp [fetchWord, Memory.readWord, Nat.not_lt.2 h, raise]

/-- Where a fetch succeeds, pc does not wrap (10_state.md R25). -/
theorem toNat_pc_add {s : State} (n : Nat) (hn : n ≤ 4) (h : s.pc.toNat < s.mem.size.val) :
    (s.pc + BitVec.ofNat 17 n).toNat = s.pc.toNat + n := by
  have := s.mem.size.isLt
  rw [BitVec.toNat_add, BitVec.toNat_ofNat]
  omega

/-- Where a byte is read (20_memory.md R52). -/
theorem Memory.readByte_eq_some {m : Memory} {a : Nat} {b : Byte} :
    m.readByte a = some b ↔ a < m.size.val ∧ m.byteAt a = b := by
  simp only [Memory.readByte]
  split <;> simp [*]

/-! ### A whole instruction -/

/-- The bytes at pc, for each number of them up to the end of memory. -/
theorem State.fetchWindow_eq (s : State) :
    s.fetchWindow =
      if s.mem.size.val ≤ s.pc.toNat then []
      else if s.mem.size.val = s.pc.toNat + 1 then [s.mem.byteAt s.pc.toNat]
      else if s.mem.size.val = s.pc.toNat + 2 then
        [s.mem.byteAt s.pc.toNat, s.mem.byteAt (s.pc.toNat + 1)]
      else if s.mem.size.val = s.pc.toNat + 3 then
        [s.mem.byteAt s.pc.toNat, s.mem.byteAt (s.pc.toNat + 1), s.mem.byteAt (s.pc.toNat + 2)]
      else [s.mem.byteAt s.pc.toNat, s.mem.byteAt (s.pc.toNat + 1), s.mem.byteAt (s.pc.toNat + 2),
        s.mem.byteAt (s.pc.toNat + 3)] := by
  simp only [State.fetchWindow, longestInstr, Memory.bytesFrom, Nat.add_assoc, Nat.reduceAdd]
  split_ifs <;> first | rfl | omega

/-- Where the operands of a format are cut off: `room` bytes are left from pc on, and the operand that does
not fit starts `n` bytes after the opcode's (40_cycle.md R113). -/
def CutAt (f : Format) (room n : Nat) : Prop :=
  (f = .r ∧ room = 1 ∧ n = 1) ∨ (f = .rr ∧ room = 1 ∧ n = 1) ∨ (f = .rr ∧ room = 2 ∧ n = 2) ∨
    (f = .rw ∧ room = 1 ∧ n = 1) ∨ (f = .rw ∧ (room = 2 ∨ room = 3) ∧ n = 2) ∨
    (f = .w ∧ (room = 1 ∨ room = 2) ∧ n = 1)

/-- Everything fetching operands can do, pc being past the opcode byte, beside what the bytes decode to. -/
theorem fetchOperands_cases {s : State} (op : Opcode) (hlt : s.pc.toNat < s.mem.size.val)
    (k : Instr → State → Result) :
    (∃ n, decodeOperands op (s.mem.bytesFrom (s.pc.toNat + 1) 3) = .missingOperand op ∧
      CutAt op.format (s.mem.size.val - s.pc.toNat) n ∧
      fetchOperands op.layout { s with pc := s.pc + 1 } k =
        .next (State.raise { s with pc := s.pc + BitVec.ofNat 17 n } .outOfBounds
          (s.pc + BitVec.ofNat 17 n))) ∨
    (∃ i rest, i.opcode = op ∧
      decodeOperands op (s.mem.bytesFrom (s.pc.toNat + 1) 3) = .ok i rest ∧
      s.pc.toNat + i.length ≤ s.mem.size.val ∧
      fetchOperands op.layout { s with pc := s.pc + 1 } k =
        k i { s with pc := s.pc + BitVec.ofNat 17 i.length }) := by
  have e1 : (s.pc + 1).toNat = s.pc.toNat + 1 := toNat_pc_add 1 (by omega) hlt
  have e2 : (s.pc + 2).toNat = s.pc.toNat + 2 := toNat_pc_add 2 (by omega) hlt
  have p11 : s.pc + 1 + 1 = s.pc + 2 := by rw [BitVec.add_assoc]; rfl
  have p12 : s.pc + 1 + 2 = s.pc + 3 := by rw [BitVec.add_assoc]; rfl
  have p21 : s.pc + 2 + 1 = s.pc + 3 := by rw [BitVec.add_assoc]; rfl
  have p22 : s.pc + 2 + 2 = s.pc + 4 := by rw [BitVec.add_assoc]; rfl
  have hlen : ∀ i : Instr, i.opcode = op → i.length = op.layout.format.length := by
    rintro i rfl; rfl
  have t0 (a n : Nat) (h : ¬ a < s.mem.size.val) : s.mem.bytesFrom a (n + 1) = [] := if_neg h
  have t1 (a n : Nat) (h : a < s.mem.size.val) :
      s.mem.bytesFrom a (n + 1) = s.mem.byteAt a :: s.mem.bytesFrom (a + 1) n := if_pos h
  simp only [Opcode.format]
  cases hl : op.layout with
  | n i =>
    have ho := (layout_n hl).1
    refine .inr ⟨i, s.mem.bytesFrom (s.pc.toNat + 1) 3, ho, ?_, ?_, ?_⟩
    · simp only [decodeOperands, hl]
    · simp [hlen i ho, hl, Layout.format, Format.length]; omega
    · simp [hlen i ho, hl, Layout.format, Format.length, fetchOperands]
  | r mk =>
    by_cases a1 : s.pc.toNat + 1 < s.mem.size.val
    · have ho := (layout_r hl (s.mem.byteAt (s.pc.toNat + 1))).1
      refine .inr ⟨_, s.mem.bytesFrom (s.pc.toNat + 2) 2, ho, ?_, ?_, ?_⟩
      · simp [decodeOperands, hl, t1 _ _ a1]
      · simp [hlen _ ho, hl, Layout.format, Format.length]; omega
      · simp only [hlen _ ho, hl, Layout.format, Format.length, fetchOperands, fetchByte,
          Memory.readByte, e1, a1, p11, ↓reduceIte]
        rfl
    · refine .inl ⟨1, by simp [decodeOperands, hl, t0 _ _ a1], ?_, ?_⟩
      · simp [CutAt, Layout.format]; omega
      · simp only [fetchOperands, fetchByte, Memory.readByte, e1, a1, raise, ↓reduceIte]
        rfl
  | rr mk =>
    by_cases a1 : s.pc.toNat + 1 < s.mem.size.val
    · by_cases a2 : s.pc.toNat + 2 < s.mem.size.val
      · have ho := (layout_rr hl (s.mem.byteAt (s.pc.toNat + 1)) (s.mem.byteAt (s.pc.toNat + 2))).1
        refine .inr ⟨_, s.mem.bytesFrom (s.pc.toNat + 3) 1, ho, ?_, ?_, ?_⟩
        · simp [decodeOperands, hl, t1 _ _ a1, t1 _ _ a2]
        · simp [hlen _ ho, hl, Layout.format, Format.length]; omega
        · simp only [hlen _ ho, hl, Layout.format, Format.length, fetchOperands, fetchByte,
            Memory.readByte, e1, e2, a1, a2, p11, p21, ↓reduceIte]
          rfl
      · refine .inl ⟨2, by simp [decodeOperands, hl, t1 _ _ a1, t0 _ _ a2], ?_, ?_⟩
        · simp [CutAt, Layout.format]; omega
        · simp only [fetchOperands, fetchByte, Memory.readByte, e1, e2, a1, a2, p11, raise,
            ↓reduceIte]
          rfl
    · refine .inl ⟨1, by simp [decodeOperands, hl, t0 _ _ a1], ?_, ?_⟩
      · simp [CutAt, Layout.format]; omega
      · simp only [fetchOperands, fetchByte, Memory.readByte, e1, a1, raise, ↓reduceIte]
        rfl
  | rw mk =>
    by_cases a1 : s.pc.toNat + 1 < s.mem.size.val
    · by_cases a3 : s.pc.toNat + 2 + 1 < s.mem.size.val
      · have a2 : s.pc.toNat + 2 < s.mem.size.val := by omega
        have ho := (layout_rw hl (s.mem.byteAt (s.pc.toNat + 1))
          (wordOfBytes (s.mem.byteAt (s.pc.toNat + 2)) (s.mem.byteAt (s.pc.toNat + 2 + 1)))).1
        refine .inr ⟨_, [], ho, ?_, ?_, ?_⟩
        · simp [decodeOperands, hl, t1 _ _ a1, t1 _ _ a2, t1 _ _ a3]; rfl
        · simp [hlen _ ho, hl, Layout.format, Format.length]; omega
        · simp only [hlen _ ho, hl, Layout.format, Format.length, fetchOperands, fetchByte, fetchWord,
            Memory.readByte, Memory.readWord, e1, e2, a1, a3, p11, p22, ↓reduceIte]
          rfl
      · refine .inl ⟨2, ?_, ?_, ?_⟩
        · by_cases a2 : s.pc.toNat + 2 < s.mem.size.val
          · simp [decodeOperands, hl, t1 _ _ a1, t1 _ _ a2, t0 _ _ a3]
          · simp [decodeOperands, hl, t1 _ _ a1, t0 _ _ a2]
        · simp [CutAt, Layout.format]; omega
        · simp only [fetchOperands, fetchByte, fetchWord, Memory.readByte, Memory.readWord, e1, e2, a1,
            a3, p11, raise, ↓reduceIte]
          rfl
    · refine .inl ⟨1, by simp [decodeOperands, hl, t0 _ _ a1], ?_, ?_⟩
      · simp [CutAt, Layout.format]; omega
      · simp only [fetchOperands, fetchByte, Memory.readByte, e1, a1, raise, ↓reduceIte]
        rfl
  | w mk =>
    by_cases a2 : s.pc.toNat + 1 + 1 < s.mem.size.val
    · have a1 : s.pc.toNat + 1 < s.mem.size.val := by omega
      have ho := (layout_w hl
        (wordOfBytes (s.mem.byteAt (s.pc.toNat + 1)) (s.mem.byteAt (s.pc.toNat + 1 + 1)))).1
      refine .inr ⟨_, s.mem.bytesFrom (s.pc.toNat + 3) 1, ho, ?_, ?_, ?_⟩
      · simp [decodeOperands, hl, t1 _ _ a1, t1 _ _ a2]
      · simp [hlen _ ho, hl, Layout.format, Format.length]; omega
      · simp only [hlen _ ho, hl, Layout.format, Format.length, fetchOperands, fetchWord,
          Memory.readWord, e1, a2, p12, ↓reduceIte]
        rfl
    · refine .inl ⟨1, ?_, ?_, ?_⟩
      · by_cases a1 : s.pc.toNat + 1 < s.mem.size.val
        · simp [decodeOperands, hl, t1 _ _ a1, t0 _ _ a2]
        · simp [decodeOperands, hl, t0 _ _ a1]
      · simp [CutAt, Layout.format]; omega
      · simp only [fetchOperands, fetchWord, Memory.readWord, e1, a2, raise, ↓reduceIte]
        rfl

/-- Everything fetching an instruction can do: raise at the opcode byte, at decode or at an operand, or
hand on what the bytes at pc decode to, with pc past it. -/
theorem fetchInstr_cases (s : State) (k : Instr → State → Result) :
    (s.mem.size.val ≤ s.pc.toNat ∧ decode s.fetchWindow = .missingOpcode ∧
      fetchInstr s k = .next (s.raise .outOfBounds s.pc)) ∨
    (∃ b, s.mem.readByte s.pc.toNat = some b ∧ decodeOpcode b = none ∧
      decode s.fetchWindow = .illegalOpcode b ∧
      fetchInstr s k =
        .next (State.raise { s with pc := s.pc + 1 } .decodeError (b.setWidth 17))) ∨
    (∃ op n, s.mem.readByte s.pc.toNat = some op.byte ∧
      decode s.fetchWindow = .missingOperand op ∧
      CutAt op.format (s.mem.size.val - s.pc.toNat) n ∧
      fetchInstr s k = .next (State.raise { s with pc := s.pc + BitVec.ofNat 17 n } .outOfBounds
        (s.pc + BitVec.ofNat 17 n))) ∨
    (∃ i rest, s.mem.readByte s.pc.toNat = some i.opcode.byte ∧
      decode s.fetchWindow = .ok i rest ∧ s.pc.toNat + i.length ≤ s.mem.size.val ∧
      fetchInstr s k = k i { s with pc := s.pc + BitVec.ofNat 17 i.length }) := by
  by_cases h0 : s.mem.size.val ≤ s.pc.toNat
  · exact .inl ⟨h0, by simp [State.fetchWindow_eq, h0, decode], by simp [fetchInstr, fetchByte_out h0]⟩
  have hlt : s.pc.toNat < s.mem.size.val := Nat.lt_of_not_le h0
  have hb : s.mem.readByte s.pc.toNat = some (s.mem.byteAt s.pc.toNat) :=
    Memory.readByte_eq_some.2 ⟨hlt, rfl⟩
  refine .inr ?_
  have hw : s.fetchWindow = s.mem.byteAt s.pc.toNat :: s.mem.bytesFrom (s.pc.toNat + 1) 3 := by
    simp [State.fetchWindow, longestInstr, Memory.bytesFrom, hlt]
  cases ho : decodeOpcode (s.mem.byteAt s.pc.toNat) with
  | none =>
    exact .inl ⟨_, hb, ho, by simp [hw, decode, ho], by simp [fetchInstr, fetchByte_in hlt, ho, raise]⟩
  | some op =>
    refine .inr ?_
    rw [← byte_of_decodeOpcode ho] at hb
    have hd : decode s.fetchWindow = decodeOperands op (s.mem.bytesFrom (s.pc.toNat + 1) 3) := by
      simp [hw, decode, ho]
    have hk : fetchInstr s k = fetchOperands op.layout { s with pc := s.pc + 1 } k := by
      simp [fetchInstr, fetchByte_in hlt, ho]
    rw [hd, hk]
    rcases fetchOperands_cases op hlt k with ⟨n, h1, h2, h3⟩ | ⟨i, rest, rfl, h1, h2, h3⟩
    · exact .inl ⟨op, n, hb, h1, h2, h3⟩
    · exact .inr ⟨i, rest, hb, h1, h2, h3⟩

/-! ### The step -/

theorem step_running {s : State} (h : s.status = .running) : step s = fetchInstr s exec := by
  simp [step, h]

theorem step_ended {s : State} (h : s.status ≠ .running) : step s = .next s := by
  cases hs : s.status <;> simp_all [step]

end Sys2Proof.Machine
end

