-- ==== Sys2Proof/Laws/Alike.lean ====
section
/-! SUPPORT. Two states side by side: each shared operation, started from two states, answers next states
in a relation `Q` if raising does and what comes after does. -/

namespace Sys2Proof.Machine

/-- Where the first answers a next state the second does too, and the two are in the relation. -/
def Alike (Q : State → State → Prop) (x y : Result) : Prop :=
  ∀ t, x = .next t → ∃ u, y = .next u ∧ Q t u

theorem Alike.next {Q : State → State → Prop} {t u : State} (h : Q t u) :
    Alike Q (.next t) (.next u) := fun _ e => ⟨u, rfl, Host.Outcome.next.inj e ▸ h⟩

section

variable {Q : State → State → Prop} {s s' : State}

theorem withReg_alike {r : Byte} {k k' : Fin 9 → Result}
    (hr : ∀ kind info, Q (s.raise kind info) (s'.raise kind info))
    (hk : ∀ d : Fin 9, r.toNat = d.val → Alike Q (k d) (k' d)) :
    Alike Q (withReg r s k) (withReg r s' k') := by
  rcases named_or_invalid r with ⟨d, hd⟩ | hv
  · rw [withReg_named hd, withReg_named hd]; exact hk d hd
  · rw [withReg_invalid hv, withReg_invalid hv]; exact .next (hr _ _)

theorem loadWord_alike {a : Word} {k k' : Word → Result} (hm : s'.mem = s.mem)
    (hr : ∀ kind info, Q (s.raise kind info) (s'.raise kind info))
    (hk : ∀ v, Alike Q (k v) (k' v)) : Alike Q (loadWord a s k) (loadWord a s' k') := by
  simp only [loadWord, hm]
  split
  · exact hk _
  · exact .next (hr _ _)

theorem storeWord_alike {a v : Word} (hm : s'.mem = s.mem)
    (hr : ∀ kind info, Q (s.raise kind info) (s'.raise kind info))
    (hk : ∀ m, Q { s with mem := m } { s' with mem := m }) :
    Alike Q (storeWord a v s) (storeWord a v s') := by
  simp only [storeWord, hm]
  split
  · exact .next (hk _)
  · exact .next (hr _ _)

theorem push_alike {v : Word} (hsp : s'.sp = s.sp)
    (hr : ∀ kind info, Q (s.raise kind info) (s'.raise kind info))
    (hk : ∀ h : s.sp.val < 256,
      Q { s with stack := s.stack.set s.sp.val v, sp := ⟨s.sp.val + 1, by omega⟩ }
        { s' with stack := s'.stack.set s.sp.val v, sp := ⟨s.sp.val + 1, by omega⟩ }) :
    Alike Q (push v s) (push v s') := by
  simp only [push, hsp]
  split
  · exact .next (hk ‹_›)
  · exact .next (hr _ _)

theorem pop_alike {k k' : Word → State → Result} (hsp : s'.sp = s.sp)
    (hr : ∀ kind info, Q (s.raise kind info) (s'.raise kind info))
    (hk : ∀ h : 0 < s.sp.val,
      Alike Q (k s.stack[s.sp.val - 1] { s with sp := ⟨s.sp.val - 1, by omega⟩ })
        (k' s'.stack[s.sp.val - 1] { s' with sp := ⟨s.sp.val - 1, by omega⟩ })) :
    Alike Q (pop s k) (pop s' k') := by
  simp only [pop, hsp]
  split
  · exact hk ‹_›
  · exact .next (hr _ _)

theorem fetchByte_alike {k k' : Byte → State → Result} (hm : s'.mem = s.mem) (hpc : s'.pc = s.pc)
    (hr : ∀ kind info, Q (s.raise kind info) (s'.raise kind info))
    (hk : ∀ b, Alike Q (k b { s with pc := s.pc + 1 }) (k' b { s' with pc := s.pc + 1 })) :
    Alike Q (fetchByte s k) (fetchByte s' k') := by
  simp only [hm] at hk
  simp only [fetchByte, hm, hpc]
  split
  · exact hk _
  · exact .next (hr _ _)

theorem fetchWord_alike {k k' : Word → State → Result} (hm : s'.mem = s.mem) (hpc : s'.pc = s.pc)
    (hr : ∀ kind info, Q (s.raise kind info) (s'.raise kind info))
    (hk : ∀ w, Alike Q (k w { s with pc := s.pc + 2 }) (k' w { s' with pc := s.pc + 2 })) :
    Alike Q (fetchWord s k) (fetchWord s' k') := by
  simp only [hm] at hk
  simp only [fetchWord, hm, hpc]
  split
  · exact hk _
  · exact .next (hr _ _)

end

end Sys2Proof.Machine
end

