-- ==== Sys2Proof/Laws/Memory.lean ====
section
/-! SUPPORT. Memory: reading after writing, and the canonical form, which every operation keeps. -/

namespace Sys2Proof.Machine

/-! ### Cells -/

/-- An address below every listed one is not listed. -/
theorem cellLookup_of_lt {cs : List Host.Cell} {a : Nat} (h : ∀ c ∈ cs, a < c.1) :
    cellLookup cs a = Config.fillByte := by
  induction cs with
  | nil => rfl
  | cons c cs ih =>
    have hc : c.1 ≠ a := Nat.ne_of_gt (h c (by simp))
    simp [cellLookup, hc, ih fun d hd => h d (by simp [hd])]

/-- Storing changes the byte of its own address, and no other. -/
theorem cellLookup_cellInsert {cs : List Host.Cell} (hs : cs.Pairwise fun c d => c.1 < d.1)
    (a : Nat) (b : Byte) (x : Nat) :
    cellLookup (cellInsert cs a b) x = if x = a then b else cellLookup cs x := by
  induction cs with
  | nil => by_cases hb : b = Config.fillByte <;> simp [cellInsert, cellLookup, hb, eq_comm]
  | cons c cs ih =>
    obtain ⟨k, d⟩ := c
    obtain ⟨hk, hs'⟩ := List.pairwise_cons.1 hs
    simp only [cellInsert]
    split
    · rename_i hlt
      have hfill : cellLookup ((k, d) :: cs) a = Config.fillByte :=
        cellLookup_of_lt fun e he => by
          rcases List.mem_cons.1 he with rfl | he
          · exact hlt
          · exact hlt.trans (hk e he)
      split
      · rename_i hb
        by_cases hx : x = a <;> simp [hx, hb, hfill]
      · by_cases hx : x = a
        · simp [cellLookup, hx]
        · simp [cellLookup, hx, Ne.symm hx]
    · split
      · rename_i _ heq
        subst heq
        have hfill : cellLookup cs a = Config.fillByte := cellLookup_of_lt hk
        split
        · rename_i hb
          by_cases hx : x = a
          · simp [hx, hb, hfill]
          · simp [cellLookup, hx, Ne.symm hx]
        · by_cases hx : x = a
          · simp [cellLookup, hx]
          · simp [cellLookup, hx, Ne.symm hx]
      · rename_i hlt heq
        by_cases hx : x = k
        · have : x ≠ a := fun h => heq (h.symm.trans hx)
          simp [cellLookup, hx.symm, this]
        · simp [cellLookup, Ne.symm hx, ih hs']

/-- A cell after storing is the stored one, or was there before. -/
theorem mem_cellInsert {cs : List Host.Cell} {a : Nat} {b : Byte} {c : Host.Cell}
    (h : c ∈ cellInsert cs a b) : (c = (a, b) ∧ b ≠ Config.fillByte) ∨ c ∈ cs := by
  induction cs with
  | nil => simp only [cellInsert] at h; split at h <;> simp_all
  | cons d cs ih =>
    obtain ⟨k, e⟩ := d
    simp only [cellInsert] at h
    repeat' split at h
    all_goals simp only [List.mem_cons] at h ⊢
    all_goals first
      | tauto
      | (subst_vars; tauto)

/-- Storing keeps the addresses rising. -/
theorem pairwise_cellInsert {cs : List Host.Cell} (hs : cs.Pairwise fun c d => c.1 < d.1)
    (a : Nat) (b : Byte) : (cellInsert cs a b).Pairwise fun c d => c.1 < d.1 := by
  induction cs with
  | nil => simp only [cellInsert]; split <;> simp
  | cons c cs ih =>
    obtain ⟨k, d⟩ := c
    obtain ⟨hk, hs'⟩ := List.pairwise_cons.1 hs
    simp only [cellInsert]
    split
    · rename_i hlt
      split
      · exact hs
      · refine List.pairwise_cons.2 ⟨fun e he => ?_, hs⟩
        rcases List.mem_cons.1 he with rfl | he
        · exact hlt
        · exact hlt.trans (hk e he)
    · split
      · split
        · exact hs'
        · exact List.pairwise_cons.2 ⟨hk, hs'⟩
      · rename_i hlt heq
        refine List.pairwise_cons.2 ⟨fun e he => ?_, ih hs'⟩
        rcases mem_cellInsert he with ⟨rfl, -⟩ | he
        · simp only; omega
        · exact hk e he

/-- The cells of an image lie in its range, hold its bytes, and list no fill byte. -/
theorem mem_cellsOfBytes {a : Nat} {bs : List Byte} {c : Host.Cell} (h : c ∈ cellsOfBytes a bs) :
    a ≤ c.1 ∧ c.1 < a + bs.length ∧ c.2 ≠ Config.fillByte := by
  induction bs generalizing a with
  | nil => simp [cellsOfBytes] at h
  | cons b bs ih =>
    simp only [cellsOfBytes] at h
    simp only [List.length_cons]
    split at h
    · have := ih h; exact ⟨by omega, by omega, this.2.2⟩
    · rename_i hb
      rcases List.mem_cons.1 h with rfl | h
      · exact ⟨by simp, by simp only; omega, hb⟩
      · have := ih h; exact ⟨by omega, by omega, this.2.2⟩

/-- The cells of an image rise. -/
theorem pairwise_cellsOfBytes (a : Nat) (bs : List Byte) :
    (cellsOfBytes a bs).Pairwise fun c d => c.1 < d.1 := by
  induction bs generalizing a with
  | nil => simp [cellsOfBytes]
  | cons b bs ih =>
    simp only [cellsOfBytes]
    split
    · exact ih _
    · exact List.pairwise_cons.2 ⟨fun c hc => (mem_cellsOfBytes hc).1, ih _⟩

/-- The byte an image gives an address of its range. -/
theorem cellLookup_cellsOfBytes (a : Nat) (bs : List Byte) (i : Nat) (h : i < bs.length) :
    cellLookup (cellsOfBytes a bs) (a + i) = bs[i] := by
  induction bs generalizing a i with
  | nil => simp at h
  | cons b bs ih =>
    simp only [cellsOfBytes]
    cases i with
    | zero =>
      split
      · rename_i hb
        rw [cellLookup_of_lt fun c hc => by have := (mem_cellsOfBytes hc).1; omega]
        simp [hb]
      · simp [cellLookup]
    | succ i =>
      have hi : cellLookup (cellsOfBytes (a + 1) bs) (a + (i + 1)) = bs[i]'(by simpa using h) := by
        rw [← ih (a + 1) i (by simpa using h)]; congr 1; omega
      split
      · simpa using hi
      · simpa [cellLookup] using hi

/-! ### Memory -/

@[simp] theorem Memory.setByte_size (m : Memory) (a : Nat) (b : Byte) :
    (m.setByte a b).size = m.size := rfl

/-- Reading after a byte is stored. -/
theorem Memory.byteAt_setByte {m : Memory} (hm : m.wf) (a : Nat) (b : Byte) (x : Nat) :
    (m.setByte a b).byteAt x = if x = a then b else m.byteAt x :=
  cellLookup_cellInsert hm.1 a b x

/-- Storing a byte in bounds keeps the canonical form. -/
theorem Memory.setByte_wf {m : Memory} (hm : m.wf) {a : Nat} (ha : a < m.size.val) (b : Byte) :
    (m.setByte a b).wf := by
  refine ⟨pairwise_cellInsert hm.1 a b, fun c hc => ?_⟩
  rcases mem_cellInsert hc with ⟨rfl, hb⟩ | hc
  · exact ⟨ha, hb⟩
  · exact hm.2 c hc

/-- `MemWrite(a, 1, b)` keeps the canonical form. -/
theorem Memory.writeByte_wf {m m' : Memory} (hm : m.wf) {a : Nat} {b : Byte}
    (h : m.writeByte a b = some m') : m'.wf := by
  simp only [Memory.writeByte] at h
  split at h
  · cases h; exact Memory.setByte_wf hm ‹_› b
  · cases h

/-- `MemWrite(a, 2, v)` keeps the canonical form. -/
theorem Memory.writeWord_wf {m m' : Memory} (hm : m.wf) {a : Nat} {v : Word}
    (h : m.writeWord a v = some m') : m'.wf := by
  simp only [Memory.writeWord] at h
  split at h
  · rename_i ha
    cases h
    exact Memory.setByte_wf (Memory.setByte_wf hm (by omega) _) (by simpa using ha) _
  · cases h

/-- `MemWrite(a, 2, v)`: what it answers, all of it. -/
theorem Memory.writeWord_eq_some {m m' : Memory} {a : Nat} {v : Word} :
    m.writeWord a v = some m' ↔
      a + 1 < m.size.val ∧ m' = (m.setByte a (lowByte v)).setByte (a + 1) (highByte v) := by
  simp only [Memory.writeWord]
  split <;> simp [*, eq_comm]

/-- Reading a byte after a word is written. -/
theorem Memory.byteAt_writeWord {m m' : Memory} (hm : m.wf) {a : Nat} {v : Word}
    (h : m.writeWord a v = some m') (x : Nat) :
    m'.byteAt x = if x = a + 1 then highByte v else if x = a then lowByte v else m.byteAt x := by
  obtain ⟨ha, rfl⟩ := Memory.writeWord_eq_some.1 h
  rw [Memory.byteAt_setByte (Memory.setByte_wf hm (by omega) _), Memory.byteAt_setByte hm]

/-- Memory with nothing listed is canonical. -/
theorem Memory.empty_wf (n : Fin 65537) : ({ size := n, cells := [] } : Memory).wf := by
  simp [Memory.wf]

/-- Growing memory keeps the canonical form. -/
theorem Memory.grow_wf {m : Memory} (hm : m.wf) {n : Fin 65537} (hn : m.size.val ≤ n.val) :
    ({ m with size := n } : Memory).wf :=
  ⟨hm.1, fun c hc => ⟨(hm.2 c hc).1.trans_le hn, (hm.2 c hc).2⟩⟩

/-- Storing bytes one after another in bounds keeps the canonical form and the size. -/
theorem Memory.foldl_setByte_wf {m : Memory} (hm : m.wf) (ps : List (Byte × Nat))
    (h : ∀ p ∈ ps, p.2 < m.size.val) :
    (ps.foldl (fun m p => m.setByte p.2 p.1) m).wf := by
  induction ps generalizing m with
  | nil => exact hm
  | cons p ps ih =>
    exact ih (Memory.setByte_wf hm (h p (by simp)) _) fun q hq => h q (by simp [hq])

/-- Placing bytes inside the address space keeps the canonical form. -/
theorem Memory.place_wf {m : Memory} (hm : m.wf) {a : Nat} {bs : List Byte}
    (h : a + bs.length ≤ 65536) : (m.place a bs).wf := by
  refine Memory.foldl_setByte_wf (Memory.grow_wf hm ?_) _ fun p hp => ?_
  · have := m.size.isLt; simp only [le_min_iff]; omega
  · obtain ⟨b, x⟩ := p
    have := (List.mem_zipIdx hp).2.1
    simp only [lt_min_iff, lt_max_iff]; omega

/-- A loaded image's memory is canonical. -/
theorem State.load_wf {image : List Byte} {s : State} (h : State.load image = .next s) :
    s.mem.wf := by
  simp only [State.load] at h
  split at h
  · cases h
    exact ⟨pairwise_cellsOfBytes 0 image, fun c hc =>
      ⟨by simpa using (mem_cellsOfBytes hc).2.1, (mem_cellsOfBytes hc).2.2⟩⟩
  · cases h

/-- Memory right after reset is canonical. -/
theorem State.reset_mem_wf : State.reset.mem.wf := Memory.empty_wf 0

end Sys2Proof.Machine
end

