-- ==== Sys2Proof/Laws/PerInstr.lean ====
section
/-! SUPPORT. Statements made of every instruction, one lemma a constructor. -/

namespace Sys2Proof.Laws.EncodeLength

/-- The encoding has the length its opcode gives (30_encoding.md R88), and begins with the opcode byte. -/
def Statement (i : Instr) : Prop :=
  (encode i).length = i.length ∧ (encode i).head? = some i.opcode.byte

theorem nop : Statement (.nop) := ⟨rfl, rfl⟩
theorem hlt : Statement (.hlt) := ⟨rfl, rfl⟩
theorem moveLit (a : Byte) (b : Word) : Statement (.moveLit a b) := ⟨rfl, rfl⟩
theorem moveReg (a b : Byte) : Statement (.moveReg a b) := ⟨rfl, rfl⟩
theorem moveRegMem (a : Byte) (b : Word) : Statement (.moveRegMem a b) := ⟨rfl, rfl⟩
theorem moveMemReg (a : Byte) (b : Word) : Statement (.moveMemReg a b) := ⟨rfl, rfl⟩
theorem add (a b : Byte) : Statement (.add a b) := ⟨rfl, rfl⟩
theorem sub (a b : Byte) : Statement (.sub a b) := ⟨rfl, rfl⟩
theorem mul (a b : Byte) : Statement (.mul a b) := ⟨rfl, rfl⟩
theorem pushLit (a : Word) : Statement (.pushLit a) := ⟨rfl, rfl⟩
theorem pushReg (a : Byte) : Statement (.pushReg a) := ⟨rfl, rfl⟩
theorem pop (a : Byte) : Statement (.pop a) := ⟨rfl, rfl⟩
theorem print (a : Byte) : Statement (.print a) := ⟨rfl, rfl⟩
theorem cmp (a b : Byte) : Statement (.cmp a b) := ⟨rfl, rfl⟩
theorem cmpNot (a b : Byte) : Statement (.cmpNot a b) := ⟨rfl, rfl⟩
theorem lt (a b : Byte) : Statement (.lt a b) := ⟨rfl, rfl⟩
theorem gt (a b : Byte) : Statement (.gt a b) := ⟨rfl, rfl⟩
theorem jmp (a : Word) : Statement (.jmp a) := ⟨rfl, rfl⟩
theorem jmpZ (a : Word) : Statement (.jmpZ a) := ⟨rfl, rfl⟩
theorem jmpNZ (a : Word) : Statement (.jmpNZ a) := ⟨rfl, rfl⟩

end Sys2Proof.Laws.EncodeLength
end

