-- ==== Sys2Proof/Laws/Run.lean ====
section
/-! SUPPORT. Runs, one step at a time. -/

namespace Sys2Proof.Machine

@[simp] theorem State.runFor_zero (s : State) : s.runFor 0 = .next s := rfl

/-- A run of one more step goes on from where the first step leads. -/
theorem State.runFor_succ {s t : State} (h : step s = .next t) (n : Nat) :
    s.runFor (n + 1) = t.runFor n := by
  simp only [State.runFor, Host.Core.run]
  rw [show core.step s = .next t from h]

/-- A step that answers no next state ends the run with what it answers. -/
theorem step_of_runFor_succ {s t : State} {n : Nat} (h : s.runFor (n + 1) = .next t) :
    ∃ u, step s = .next u ∧ u.runFor n = .next t := by
  cases hs : step s with
  | next u => exact ⟨u, rfl, (State.runFor_succ hs n).symm.trans h⟩
  | fault f => exact nomatch f
  | refused r =>
    simp only [State.runFor, Host.Core.run] at h
    rw [show core.step s = .refused r from hs] at h
    cases h

/-- A run of `n + m` steps is one of `n` and then one of `m`. -/
theorem State.runFor_add {s t : State} {n : Nat} (m : Nat) (h : s.runFor n = .next t) :
    s.runFor (n + m) = t.runFor m := by
  induction n generalizing s with
  | zero => cases h; rw [Nat.zero_add]
  | succ n ih =>
    obtain ⟨u, hu, hn⟩ := step_of_runFor_succ h
    rw [Nat.add_right_comm, State.runFor_succ hu, ih hn]

end Sys2Proof.Machine
end

