-- ==== Sys2Proof/Tests/Slice0.lean ====
section
/-! SUPPORT. The model's own tests.  Expected results are written out from the spec: the encodings of
30_encoding.md, the vectors W and V of 95_test_vectors.md, and the examples and corner cases of the
instruction files.  At the end, one witness for the hypotheses of each obligation, clause by clause. -/

namespace Sys2Proof.Tests

open Sys2Proof Sys2Proof.Machine

/-! ### Helpers -/

/-- A state with a small image loaded, right after reset. -/
def boot (image : List Byte) : State :=
  match State.load image with
  | .next s => s
  | .fault f => nomatch f
  | .refused _ => State.reset

/-- What is seen of the state one step leads to. -/
def seen {α : Type} (s : State) (f : State → α) : Option α :=
  match step s with
  | .next t => some (f t)
  | .fault f => nomatch f
  | .refused _ => none

/-- The run state, the fault record and pc. -/
def ending (t : State) : RunStatus × FaultKind × Nat × Nat :=
  (t.status, t.faultKind, t.faultInfo.toNat, t.pc.toNat)

/-- A memory of `n` zero bytes. -/
def zeros (n : Fin 65537) : Memory := { size := n, cells := [] }

/-! ### WellFormed refuses each ill-formed register operand -/

theorem test_wf_move : ¬ (Instr.moveLit 9 0).WellFormed ∧ ¬ (Instr.moveReg 9 0).WellFormed ∧
    ¬ (Instr.moveReg 0 9).WellFormed ∧ ¬ (Instr.moveRegMem 255 0).WellFormed ∧
    ¬ (Instr.moveMemReg 9 0).WellFormed := by decide

theorem test_wf_arithmetic : ¬ (Instr.add 9 0).WellFormed ∧ ¬ (Instr.add 0 9).WellFormed ∧
    ¬ (Instr.sub 9 0).WellFormed ∧ ¬ (Instr.sub 0 9).WellFormed ∧ ¬ (Instr.mul 9 0).WellFormed ∧
    ¬ (Instr.mul 0 9).WellFormed := by decide

theorem test_wf_stack_print : ¬ (Instr.pushReg 9).WellFormed ∧ ¬ (Instr.pop 9).WellFormed ∧
    ¬ (Instr.print 9).WellFormed := by decide

theorem test_wf_compare : ¬ (Instr.cmp 9 0).WellFormed ∧ ¬ (Instr.cmp 0 9).WellFormed ∧
    ¬ (Instr.cmpNot 9 0).WellFormed ∧ ¬ (Instr.cmpNot 0 9).WellFormed ∧
    ¬ (Instr.lt 9 0).WellFormed ∧ ¬ (Instr.lt 0 9).WellFormed ∧ ¬ (Instr.gt 9 0).WellFormed ∧
    ¬ (Instr.gt 0 9).WellFormed := by decide

/-- Index 8 is ACC, and every literal and address is legal (10_state.md R21, 30_encoding.md R87). -/
theorem test_wf_accepts : (Instr.moveReg 8 0).WellFormed ∧ (Instr.jmp 0xFFFF).WellFormed ∧
    Instr.hlt.WellFormed := by decide

/-! ### Decoding: words numbered as spec/opcode_table.json numbers them -/

theorem test_decode_nop_hlt :
    decodeTableWord 8 0x00 = some .nop ∧ decodeTableWord 8 0x01 = some .hlt := by decide

theorem test_decode_move :
    decodeTableWord 32 0xFFFE0810 = some (.moveLit 8 0xFFFE) ∧
    decodeTableWord 24 0x020511 = some (.moveReg 5 2) ∧
    decodeTableWord 32 0x00200112 = some (.moveRegMem 1 0x0020) ∧
    decodeTableWord 32 0x12340713 = some (.moveMemReg 7 0x1234) := by decide

theorem test_decode_arithmetic :
    decodeTableWord 24 0x010014 = some (.add 0 1) ∧
    decodeTableWord 24 0x000815 = some (.sub 8 0) ∧
    decodeTableWord 24 0x040316 = some (.mul 3 4) := by decide

theorem test_decode_stack_print :
    decodeTableWord 24 0x12341A = some (.pushLit 0x1234) ∧
    decodeTableWord 16 0x081B = some (.pushReg 8) ∧
    decodeTableWord 16 0x011C = some (.pop 1) ∧
    decodeTableWord 16 0x021D = some (.print 2) := by decide

theorem test_decode_compare :
    decodeTableWord 24 0x01001E = some (.cmp 0 1) ∧
    decodeTableWord 24 0x02011F = some (.cmpNot 1 2) ∧
    decodeTableWord 24 0x060520 = some (.lt 5 6) ∧
    decodeTableWord 24 0xFF0921 = some (.gt 9 255) := by decide

theorem test_decode_jump :
    decodeTableWord 24 0xABCD30 = some (.jmp 0xABCD) ∧
    decodeTableWord 24 0x000431 = some (.jmpZ 4) ∧
    decodeTableWord 24 0x010032 = some (.jmpNZ 0x0100) := by decide

/-- Operand words the table gives no bits are zeros. -/
theorem test_decode_short_row : decodeTableWord 8 0x10 = some (.moveLit 0 0) := by decide

/-- W7, V2 to V4: bytes of the four illegal ranges, at their ends. -/
theorem test_decode_illegal :
    ∀ b ∈ [0x02, 0x0F, 0x17, 0x19, 0x22, 0x2F, 0x33, 0xFF], decodeTableWord 8 b = none := by decide

/-- R80: bytes in address order, low byte of a word first. -/
theorem test_encode : encode (.moveLit 1 0xBEEF) = [0x10, 0x01, 0xEF, 0xBE] := by decide

/-! ### Fetch and decode faults (2.1) -/

theorem test_V1 : seen (boot []) ending = some (.faulted, .outOfBounds, 0, 0) := by decide
theorem test_V3 : seen (boot [0x17]) ending = some (.faulted, .decodeError, 0x17, 1) := by decide
theorem test_V7 : seen (boot [0x10, 0x00, 0x05]) ending = some (.faulted, .outOfBounds, 2, 2) := by
  decide
theorem test_V8 : seen (boot [0x1A, 0x01]) ending = some (.faulted, .outOfBounds, 1, 1) := by decide

/-- The bound is 65536, and pc may hold it (10_state.md R24). -/
theorem test_fetch_at_65536 :
    seen { State.reset with mem := zeros 65536, pc := 65535 } ending =
      some (.running, .noFault, 0, 65536) ∧
    seen { State.reset with mem := zeros 65536, pc := 65536 } ending =
      some (.faulted, .outOfBounds, 65536, 65536) := by decide

/-! ### Each instruction, one step -/

theorem test_nop : seen (boot [0x00, 0x01]) ending = some (.running, .noFault, 0, 1) := by decide

/-- V11, V12. -/
theorem test_hlt : seen (boot [0x01, 0xFF]) ending = some (.halted, .noFault, 0, 1) := by decide

/-- V17. -/
theorem test_moveLit : seen (boot [0x10, 0x08, 0xFE, 0xFF]) (fun t => (t.readReg 8, t.pc)) =
    some (0xFFFE, 4) := by decide

/-- V18. -/
theorem test_moveLit_bad : seen (boot [0x10, 0x09, 0x00, 0x00]) ending =
    some (.faulted, .invalidRegister, 9, 4) := by decide

/-- V19: the destination comes first. -/
theorem test_moveReg : seen ((boot [0x11, 0x05, 0x02]).writeReg 2 0x00AB)
    (fun t => (t.readReg 5, t.readReg 2)) = some (0x00AB, 0x00AB) := by decide

/-- V21. -/
theorem test_moveReg_bad : seen ((boot [0x11, 0x00, 0x09]).writeReg 0 7)
    (fun t => (ending t, t.readReg 0)) = some ((.faulted, .invalidRegister, 9, 3), 7) := by decide

/-- V22. -/
theorem test_moveRegMem : seen (boot [0x12, 0x00, 0x03, 0x00, 0x01]) (fun t => t.readReg 0) =
    some 0x0100 := by decide

/-- V23. -/
theorem test_moveRegMem_out : seen (boot [0x12, 0x00, 0x04, 0x00, 0x01]) ending =
    some (.faulted, .outOfBounds, 4, 4) := by decide

/-- V26. -/
theorem test_moveMemReg : seen ((boot [0x13, 0x01, 0x05, 0x00, 0x01, 0x00, 0x00]).writeReg 1 0xBEEF)
    State.dump = some [0x13, 0x01, 0x05, 0x00, 0x01, 0xEF, 0xBE] := by decide

/-- V24. -/
theorem test_moveMemReg_out : seen (boot [0x13, 0x00, 0xFF, 0xFF, 0x01]) (fun t => (ending t, t.dump)) =
    some ((.faulted, .outOfBounds, 0xFFFF, 4), [0x13, 0x00, 0xFF, 0xFF, 0x01]) := by decide

/-- V13. -/
theorem test_add : seen ((boot [0x14, 0x08, 0x08]).writeReg 8 0x4001) (fun t => t.readReg 8) =
    some 0x8002 := by decide

/-- V14: the first operand less the second. -/
theorem test_sub : seen ((boot [0x15, 0x08, 0x00]).writeReg 0 1) (fun t => t.readReg 8) =
    some 0xFFFF := by decide

/-- The example of R152, 300 times 300. -/
theorem test_mul : seen (((boot [0x16, 0x03, 0x04]).writeReg 3 300).writeReg 4 300)
    (fun t => (t.readReg 8, t.zf)) = some (0x5F90, false) := by decide

/-- V15: the first bad operand is reported. -/
theorem test_add_bad : seen (boot [0x14, 0x09, 0x0A]) ending =
    some (.faulted, .invalidRegister, 9, 3) := by decide

/-- W9. -/
theorem test_pushLit : seen (boot [0x1A, 0x34, 0x12]) (fun t => (t.sp, t.stack[0])) =
    some (1, 0x1234) := by decide

/-- The 256th push succeeds, and the 257th raises (R162, V29). -/
theorem test_pushLit_full :
    seen { boot [0x1A, 0x01, 0x00] with sp := 255 } (fun t => (t.sp, t.status)) =
      some (256, .running) ∧
    seen { boot [0x1A, 0x01, 0x00] with sp := 256 } ending =
      some (.faulted, .stackOverflow, 256, 3) := by decide

/-- V30. -/
theorem test_pushReg : seen ((boot [0x1B, 0x08]).writeReg 8 0x00FF) (fun t => (t.sp, t.stack[0])) =
    some (1, 0x00FF) := by decide

/-- V31. -/
theorem test_pushReg_full : seen { boot [0x1B, 0x01] with sp := 256 } ending =
    some (.faulted, .stackOverflow, 256, 2) := by decide

/-- Pop takes the entry below sp (R161, R164). -/
theorem test_pop : seen { boot [0x1C, 0x01] with sp := 2, stack := State.reset.stack.set 1 0x1234 }
    (fun t => (t.readReg 1, t.sp, t.pc)) = some (0x1234, 1, 2) := by decide

/-- V27, V28: the register check comes before the pop. -/
theorem test_pop_faults :
    seen (boot [0x1C, 0x00]) ending = some (.faulted, .stackUnderflow, 0, 2) ∧
    seen (boot [0x1C, 0x09]) ending = some (.faulted, .invalidRegister, 9, 2) := by decide

/-- V43. -/
theorem test_print : seen ((boot [0x1D, 0x02]).writeReg 2 0xBEEF) (fun t => t.out) =
    some [{ index := 2, value := 0xBEEF }] := by decide

/-- V45. -/
theorem test_print_bad : seen (boot [0x1D, 0x09]) (fun t => (ending t, t.out)) =
    some ((.faulted, .invalidRegister, 9, 2), []) := by decide

/-- A comparison of R0 = v1 and R1 = v2 from zf = `before`. -/
def compare (op : Byte) (v1 v2 : Word) (before : Bool) : Option Bool :=
  seen { ((boot [op, 0x00, 0x01]).writeReg 0 v1).writeReg 1 v2 with zf := before } (fun t => t.zf)

/-- The table of 2.6, and V34's overwriting. -/
theorem test_cmp : compare 0x1E 5 5 false = some true ∧ compare 0x1E 3 4 true = some false := by
  decide
theorem test_cmpNot : compare 0x1F 5 5 true = some false ∧ compare 0x1F 3 4 false = some true := by
  decide
theorem test_lt : compare 0x20 0 0xFFFF false = some true ∧ compare 0x20 4 3 true = some false ∧
    compare 0x20 5 5 true = some false := by decide
theorem test_gt : compare 0x21 0xFFFF 1 false = some true ∧ compare 0x21 3 4 true = some false ∧
    compare 0x21 5 5 true = some false := by decide

/-- V35: a fault leaves zf. -/
theorem test_cmp_bad : seen { boot [0x1E, 0x00, 0x0C] with zf := true } (fun t => (ending t, t.zf)) =
    some ((.faulted, .invalidRegister, 12, 3), true) := by decide

/-- V39. -/
theorem test_jmp : seen (boot [0x30, 0x10, 0x01]) ending = some (.running, .noFault, 0, 0x110) := by
  decide

/-- V38 and a taken jump: pc gets 0xFFFF zero-extended. -/
theorem test_jmpZ : seen (boot [0x31, 0xFF, 0xFF]) (fun t => t.pc) = some 3 ∧
    seen { boot [0x31, 0xFF, 0xFF] with zf := true } (fun t => t.pc) = some 0xFFFF := by decide

/-- V37 and a jump not taken. -/
theorem test_jmpNZ : seen (boot [0x32, 0x04, 0x00]) (fun t => t.pc) = some 4 ∧
    seen { boot [0x32, 0x04, 0x00] with zf := true } (fun t => t.pc) = some 3 := by decide

/-! ### Memory, the host's transactions, and the placing of a word -/

/-- W1's instance; writing back the fill byte leaves nothing listed. -/
theorem test_writeWord :
    ((zeros 4).writeWord 1 0xA1B2).map Memory.cells = some [(1, 0xB2), (2, 0xA1)] ∧
    (((zeros 4).writeWord 1 0xA1B2).bind fun m => m.writeWord 1 0).map Memory.cells = some [] := by
  decide

theorem test_load_dump : (boot [0x01, 0x00, 0xFF]).dump = [0x01, 0x00, 0xFF] ∧
    (boot [0x01, 0x00, 0xFF]).mem.cells = [(0, 0x01), (2, 0xFF)] := by decide

/-- From reset, a placed word runs at once (log 14). -/
theorem test_placed_word :
    seen (State.reset.withFetchWord 32 0xFFFE0810) (fun t => (t.readReg 8, t.pc)) =
      some (0xFFFE, 4) ∧
    seen (State.withFetchWord { State.reset with pc := 65533 } 8 0x01) ending =
      some (.halted, .noFault, 0, 1) := by decide

/-! ### Witnesses: what the obligations assume can be met -/

theorem witness_EncodeOfDecode :
    decode [0x10, 0x08, 0xFF, 0xFF, 0x01] = .ok (.moveLit 8 0xFFFF) [0x01] ∧
    decode [0x00] = .ok .nop [] := by decide

theorem witness_OpcodeDecodedFromItsByteAlone :
    (∀ op : Opcode, op.byte ≠ 0x02) ∧ ∀ op : Opcode, op.byte ≠ 0xFF := by
  constructor <;> intro op <;> cases op <;> decide

theorem witness_IllegalOpcodeRaisesDecodeError : ∀ b ∈ [(0x02 : Byte), 0x19, 0x33, 0xFF],
    (boot [b]).status = .running ∧ (boot [b]).mem.readByte (boot [b]).pc.toNat = some b ∧
      decodeOpcode b = none := by decide

theorem witness_StepRunsDecodedInstruction :
    (boot [0x14, 0x09, 0x0A]).status = .running ∧
    decode (boot [0x14, 0x09, 0x0A]).fetchWindow = .ok (.add 9 0x0A) [] ∧
    decode (boot [0x00, 0x01]).fetchWindow = .ok .nop [0x01] := by decide

theorem witness_PlacedWordRunsNext :
    State.reset.mem.wf ∧ decodeTableWord 8 0x01 = some .hlt ∧
    (boot [0x01]).mem.wf ∧ decodeTableWord 32 0x00050010 = some (.moveLit 0 5) := by decide

theorem witness_FetchPastTheEndRaisesOutOfBounds :
    (boot []).status = .running ∧ (boot []).mem.size.val ≤ (boot []).pc.toNat ∧
    (∀ c ∈ [(Opcode.print, [0x1D]), (.add, [0x14]), (.add, [0x14, 0x00]), (.moveLit, [0x10]),
        (.moveLit, [0x10, 0x00]), (.moveLit, [0x10, 0x00, 0x05]), (.jmp, [0x30]),
        (.pushLit, [0x1A, 0x01])],
      (boot c.2).status = .running ∧
      (boot c.2).mem.readByte (boot c.2).pc.toNat = some c.1.byte ∧
      (boot c.2).mem.size.val = (boot c.2).pc.toNat + c.2.length) ∧
    Opcode.print.format = .r ∧ Opcode.add.format = .rr ∧ Opcode.moveLit.format = .rw ∧
    Opcode.jmp.format = .w ∧ Opcode.pushLit.format = .w := by decide

theorem witness_EveryStepCompletes : State.reset.status = .running ∧
    (boot [0xFF]).status = .running := by decide

/-- A step that does not raise, from canonical memory. -/
def Completes (s : State) (i : Instr) : Prop :=
  s.mem.wf ∧ s.status = .running ∧ ∃ rest t,
    decode s.fetchWindow = .ok i rest ∧ step s = .next t ∧ t.status ≠ .faulted

theorem witness_PcAfterCompletedStep :
    Completes (boot [0x30, 0xFF, 0xFF]) (.jmp 0xFFFF) ∧
    Completes (boot [0x31, 0x00, 0x00]) (.jmpZ 0) ∧
    Completes { boot [0x31, 0x00, 0x00] with zf := true } (.jmpZ 0) ∧
    Completes (boot [0x32, 0x00, 0x00]) (.jmpNZ 0) ∧
    Completes { boot [0x32, 0x00, 0x00] with zf := true } (.jmpNZ 0) ∧
    Completes (boot [0x10, 0x08, 0x00, 0x00]) (.moveLit 8 0) := by
  refine ⟨?_, ?_, ?_, ?_, ?_, ?_⟩ <;>
    exact ⟨by decide, by decide, _, _, rfl, rfl, by decide⟩

theorem witness_StepChangesOnlyItsRow :
    Completes (boot [0x00]) .nop ∧ Completes (boot [0x01]) .hlt ∧
    Completes (boot [0x13, 0x00, 0x02, 0x00]) (.moveMemReg 0 2) ∧
    Completes { boot [0x1A, 0x01, 0x00] with sp := 255 } (.pushLit 1) ∧
    Completes (boot [0x1B, 0x08]) (.pushReg 8) ∧
    Completes { boot [0x1C, 0x08] with sp := 1 } (.pop 8) ∧
    Completes (boot [0x1D, 0x08]) (.print 8) ∧ Completes (boot [0x20, 0x00, 0x08]) (.lt 0 8) ∧
    Completes (boot [0x16, 0x08, 0x08]) (.mul 8 8) := by
  refine ⟨?_, ?_, ?_, ?_, ?_, ?_, ?_, ?_, ?_⟩ <;>
    exact ⟨by decide, by decide, _, _, rfl, rfl, by decide⟩

theorem witness_StatusTransitions :
    (∃ t, step { boot [0x00] with status := .halted } = .next t) ∧
    (∃ t, step (boot [0x01]) = .next t) ∧ (boot [0x01]).status = .running :=
  ⟨⟨_, rfl⟩, ⟨_, rfl⟩, rfl⟩

theorem witness_HaltedIsTerminal :
    State.status { boot [0x00] with status := .halted } = .halted ∧
    (∃ s, State.load [] = .next s) ∧ ∃ s, State.load [0x01] = .next s :=
  ⟨rfl, ⟨_, rfl⟩, ⟨_, rfl⟩⟩

theorem witness_RunEndsInOneState :
    (∃ t, RunEndsIn (boot [0x01]) t) ∧
    ∃ t, (boot [0x01]).runFor 1 = .next t ∧ t.status ≠ .running ∧ 1 ≤ 5 :=
  ⟨⟨_, ⟨1, rfl⟩, by decide⟩, _, rfl, by decide, by decide⟩

/-- A step that raises. -/
def Raises (s : State) : Prop :=
  s.status = .running ∧ ∃ t, step s = .next t ∧ t.status = .faulted

theorem witness_FaultsArePrecise :
    Raises (boot []) ∧ (boot []).mem.size.val ≤ (boot []).pc.toNat ∧
    Raises (boot [0xFF]) ∧ (boot [0xFF]).mem.readByte 0 = some 0xFF ∧ decodeOpcode 0xFF = none ∧
    Raises (boot [0x10, 0x00, 0x05]) ∧
    decode (boot [0x10, 0x00, 0x05]).fetchWindow = .missingOperand .moveLit ∧
    Raises (boot [0x10, 0x09, 0x00, 0x00]) ∧
    decode (boot [0x10, 0x09, 0x00, 0x00]).fetchWindow = .ok (.moveLit 9 0) [] :=
  ⟨⟨rfl, _, rfl, rfl⟩, by decide, ⟨rfl, _, rfl, rfl⟩, by decide, by decide, ⟨rfl, _, rfl, rfl⟩,
    by decide, ⟨rfl, _, rfl, rfl⟩, by decide⟩

theorem witness_InstructionsRaiseOnlyTheirFaults :
    (∃ t, exec (.add 0 9) (boot []) = .next t ∧ t.status = .faulted ∧
      t.faultKind = .invalidRegister) ∧
    (∃ t, exec (.moveRegMem 0 0xFFFF) (boot []) = .next t ∧ t.status = .faulted ∧
      t.faultKind = .outOfBounds) ∧
    (∃ t, exec (.pushLit 1) { boot [] with sp := 256 } = .next t ∧ t.status = .faulted ∧
      t.faultKind = .stackOverflow) ∧
    (∃ t, exec (.pop 0) (boot []) = .next t ∧ t.status = .faulted ∧
      t.faultKind = .stackUnderflow) ∧
    (boot []).status = .running ∧ FaultKind.stackOverflow ∈ Opcode.pushReg.mayRaise :=
  ⟨⟨_, rfl, rfl, rfl⟩, ⟨_, rfl, rfl, rfl⟩, ⟨_, rfl, rfl, rfl⟩, ⟨_, rfl, rfl, rfl⟩, rfl, by decide⟩

theorem witness_InvalidRegisterIsRaised :
    (Instr.add 8 9).regOperands = [8] ++ 9 :: [] ∧ (∀ q ∈ [(8 : Byte)], q.toNat ≤ 8) ∧
    8 < (9 : Byte).toNat ∧ (Instr.add 255 0).regOperands = [] ++ 255 :: [0] ∧
    8 < (255 : Byte).toNat := by decide

theorem witness_DataOutOfBoundsIsRaised :
    (8 : Byte).toNat ≤ 8 ∧ (boot [0x00, 0x00]).mem.size.val ≤ (1 : Word).toNat + 1 ∧
    (zeros 65536).size.val ≤ (0xFFFF : Word).toNat + 1 := by decide

theorem witness_StackFaultsAreRaised :
    (8 : Byte).toNat ≤ 8 ∧ (State.sp { boot [] with sp := 256 }).val = 256 ∧
    (boot []).sp.val = 0 := by decide

theorem witness_StepKeepsTheInvariant :
    (boot [0x01]).Inv ∧ ((boot [0xFF]).raise .decodeError 0xFF).Inv ∧
    ∃ t, step (boot [0x01]) = .next t := by
  refine ⟨⟨by decide, by decide, by decide, ?_, by decide⟩,
    ⟨by decide, by decide, by decide, ?_, by decide⟩, _, rfl⟩
  · show (0 : Nat) = 0; rfl
  · show 0xFF ≤ 255 ∧ decodeOpcode (BitVec.ofNat 8 0xFF) = none; decide

theorem witness_HostTransactionsGiveTheInvariant :
    (∃ s, State.load [0x00, 0xFF] = .next s) ∧ ((boot [0xFF]).raise .decodeError 0xFF).Inv :=
  ⟨⟨_, rfl⟩, witness_StepKeepsTheInvariant.2.1⟩

theorem witness_NopOnlyAdvancesPc :
    (boot [0x00]).status = .running ∧ (boot [0x00]).mem.readByte (boot [0x00]).pc.toNat = some 0x00 := by
  decide

theorem witness_HltEntersHalted :
    (boot [0x01]).status = .running ∧ (boot [0x01]).mem.readByte (boot [0x01]).pc.toNat = some 0x01 := by
  decide

theorem witness_ZeroImageRunsOffTheEnd :
    (∃ s, State.load (List.replicate 0 0) = .next s) ∧ ∃ s, State.load (List.replicate 2 0) = .next s :=
  ⟨⟨_, rfl⟩, ⟨_, rfl⟩⟩

/-- Bytes that name R0 and ACC: MoveLitLoadsTheLiteral, MoveRegCopiesSecondToFirst, ArithmeticWrapsIntoAcc,
PushStoresOnTop, PopTakesFromTheTop, PrintEmitsOneEvent and ComparisonsOverwriteZf. -/
theorem witness_register_operands :
    (0 : Byte).toNat = (0 : Fin 9).val ∧ (8 : Byte).toNat = (8 : Fin 9).val ∧ (8 : Byte).toNat ≤ 8 := by
  decide

/-- MoveLitFromItsBytes, MoveRegMemFromItsBytes and MoveMemRegFromItsBytes: the missing-operand and
bad-register clauses. -/
theorem witness_FromItsBytes_faults : ∀ op ∈ [Opcode.moveLit, .moveRegMem, .moveMemReg],
    (∀ tail ∈ [[], [0x00], [0x00, 0x05], [0x09, 0x00, 0x00]],
      (boot (op.byte :: tail)).mem.wf ∧ (boot (op.byte :: tail)).status = .running ∧
      (boot (op.byte :: tail)).mem.readByte (boot (op.byte :: tail)).pc.toNat = some op.byte ∧
      (boot (op.byte :: tail)).mem.size.val = (boot (op.byte :: tail)).pc.toNat + 1 + tail.length) ∧
    (boot [op.byte, 0x09, 0x00, 0x00]).mem.readByte 1 = some 0x09 ∧
    (boot [op.byte, 0x09, 0x00, 0x00]).mem.readByte 2 = some 0x00 ∧
    (boot [op.byte, 0x09, 0x00, 0x00]).mem.readByte 3 = some 0x00 ∧ 8 < (0x09 : Byte).toNat := by
  decide

/-- The same, with ACC named: an address at the end of memory, and one past it. -/
theorem witness_FromItsBytes_address : ∀ op ∈ [Opcode.moveLit, .moveRegMem, .moveMemReg],
    ∀ lo ∈ [(0x02 : Byte), 0x03],
      (boot [op.byte, 0x08, lo, 0x00]).mem.wf ∧
      (boot [op.byte, 0x08, lo, 0x00]).status = .running ∧
      (boot [op.byte, 0x08, lo, 0x00]).mem.readByte 0 = some op.byte ∧
      (boot [op.byte, 0x08, lo, 0x00]).mem.readByte 1 = some 0x08 ∧
      (boot [op.byte, 0x08, lo, 0x00]).mem.readByte 2 = some lo ∧
      (boot [op.byte, 0x08, lo, 0x00]).mem.readByte 3 = some 0x00 ∧
      (boot [op.byte, 0x08, lo, 0x00]).pc = 0 ∧
      ((0x00 : Byte) ++ (0x02 : Byte)).toNat + 1 < (boot [op.byte, 0x08, lo, 0x00]).mem.size.val ∧
      (boot [op.byte, 0x08, lo, 0x00]).mem.size.val ≤ ((0x00 : Byte) ++ (0x03 : Byte)).toNat + 1 := by
  decide

/-- For MoveMemRegStoresTheWord too: the highest legal address. -/
theorem witness_MoveRegMemLoadsTheWord_MoveMemRegStoresTheWord :
    (boot [0x01, 0x02, 0x03]).mem.wf ∧ (8 : Byte).toNat = (8 : Fin 9).val ∧
    (1 : Word).toNat + 1 < (boot [0x01, 0x02, 0x03]).mem.size.val ∧
    (0xFFFE : Word).toNat + 1 < (zeros 65536).size.val ∧ (zeros 65536).wf := by decide

theorem witness_StoreIsSeenByTheNextFetch :
    (boot [0x01, 0x02, 0x03]).mem.wf ∧ (8 : Byte).toNat = (8 : Fin 9).val ∧
    (1 : Word).toNat + 1 < (boot [0x01, 0x02, 0x03]).mem.size.val ∧
    ∃ t, exec (.moveMemReg 8 1) (boot [0x01, 0x02, 0x03]) = .next t :=
  ⟨by decide, by decide, by decide, _, rfl⟩

theorem witness_PushStoresOnTop :
    (State.sp { boot [] with sp := 255 }).val < 256 ∧ (boot []).sp.val < 256 := by decide

theorem witness_PopTakesFromTheTop :
    0 < (State.sp { boot [] with sp := 256 }).val ∧ 0 < (State.sp { boot [] with sp := 1 }).val := by
  decide

theorem witness_PopsReturnPushesInReverse :
    (State.sp { boot [] with sp := 253 }).val + [(1 : Word), 2, 3].length ≤ 256 ∧
    (8 : Byte).toNat ≤ 8 ∧ (boot []).sp.val = 0 := by decide

theorem witness_StaleStackIsUnobservable :
    SameButStale { boot [0x01] with sp := 1 }
      { boot [0x01] with sp := 1, stack := State.reset.stack.set 1 7 } ∧
    ∃ t, State.runFor { boot [0x01] with sp := 1 } 3 = .next t :=
  ⟨⟨rfl, fun i hi => by have : i = 0 := Fin.ext (by simpa using hi); subst this; decide⟩, _, rfl⟩

theorem witness_SinkGivesNothingBack : ∃ t, (boot [0x1D, 0x08, 0x01]).runFor 2 = .next t := ⟨_, rfl⟩

theorem witness_ComparisonsDoNotAccumulate :
    (8 : Byte).toNat ≤ 8 ∧ Instr.opcode (.cmp 0 8) ∈ [Opcode.cmp, .cmpNot, .lt, .gt] ∧
    Instr.opcode (.gt 8 0) ∈ [Opcode.cmp, .cmpNot, .lt, .gt] ∧ (Instr.cmp 0 8).WellFormed ∧
    (Instr.gt 8 0).WellFormed := by decide

theorem witness_ZfWritersAndReaders :
    (∃ t, exec (.add 0 8) (boot []) = .next t) ∧
    Instr.opcode (.add 0 8) ∉ [Opcode.cmp, .cmpNot, .lt, .gt] ∧
    Instr.opcode (.add 0 8) ∉ [Opcode.jmpZ, .jmpNZ] ∧
    (∃ t, exec (.gt 8 0) (boot []) = .next t) ∧
    Instr.opcode (.gt 8 0) ∈ [Opcode.cmp, .cmpNot, .lt, .gt] ∧ (Instr.gt 8 0).WellFormed :=
  ⟨⟨_, rfl⟩, by decide, by decide, ⟨_, rfl⟩, by decide, by decide⟩

theorem witness_JumpsAreAbsolute :
    (∃ t, exec .hlt (boot []) = .next t) ∧
    Instr.opcode .hlt ∉ [Opcode.jmp, .jmpZ, .jmpNZ] ∧
    (boot [0x30, 0x03, 0x00]).status = .running ∧
    (boot [0x30, 0x03, 0x00]).mem.size.val ≤ (3 : Word).toNat ∧
    (∃ t, exec (.jmp 3) (boot [0x30, 0x03, 0x00]) = .next t) ∧
    (boot [0x30, 0x02, 0x00]).mem.readByte (2 : Word).toNat = some 0x00 ∧
    (∃ t, exec (.jmp 2) (boot [0x30, 0x02, 0x00]) = .next t) ∧
    (boot [0x31, 0x03]).mem.readByte (boot [0x31, 0x03]).pc.toNat = some Opcode.jmpZ.byte ∧
    (boot [0x31, 0x03]).mem.size.val ≤ (boot [0x31, 0x03]).pc.toNat + 2 :=
  ⟨⟨_, rfl⟩, by decide, rfl, by decide, ⟨_, rfl⟩, by decide, ⟨_, rfl⟩, by decide, by decide⟩

theorem witness_RegistersReadBack : (8 : Fin 9) ≠ 0 := by decide

theorem witness_RegistersWrittenAndRead :
    (∃ t, exec (.add 0 8) (boot []) = .next t) ∧
    (Instr.add 0 8).writesReg.map BitVec.toNat ≠ some (0 : Fin 9).val ∧
    (Instr.add 0 8).writesReg.map BitVec.toNat = some (8 : Fin 9).val ∧
    (boot []).status = .running ∧
    ∀ r ∈ (Instr.add 0 8).readsRegs, ∀ k : Fin 9, r.toNat = k.val →
      ((boot []).regs.set 5 7)[k] = (boot []).readReg k :=
  ⟨⟨_, rfl⟩, by decide, by decide, rfl, by decide⟩

theorem witness_MemoryReadsBackWrites :
    (zeros 4).wf ∧ 2 + 1 < (zeros 4).size.val ∧ 3 < (zeros 4).size.val := by decide

theorem witness_WordsAreLittleEndian :
    (zeros 4).readWord 2 = some 0 ∧ (zeros 4).wf ∧
    (∃ m, (zeros 4).writeWord 2 0xA1B2 = some m) ∧ Opcode.jmp.format = .w ∧
    decode (Opcode.jmp.byte :: 0x34 :: 0x12 :: []) = .ok (.jmp 0x1234) [] ∧
    Opcode.moveLit.format = .rw ∧
    decode (Opcode.moveLit.byte :: 0x08 :: 0x34 :: 0x12 :: []) = .ok (.moveLit 8 0x1234) [] :=
  ⟨by decide, by decide, ⟨_, rfl⟩, by decide, by decide, by decide, by decide⟩

theorem witness_MemSizeIsFixed : ∃ t, (boot [0x13, 0x00, 0x02, 0x00]).runFor 2 = .next t := ⟨_, rfl⟩

theorem witness_EntryPointIsZero : ∃ s, State.load (0xFF :: []) = .next s := ⟨_, rfl⟩

theorem witness_LoadThenDumpGivesTheImage :
    ([] : List Byte).length ≤ 65536 ∧ (List.replicate 65536 (0 : Byte)).length ≤ 65536 ∧
    65536 < (List.replicate 65537 (0 : Byte)).length := by
  refine ⟨Nat.zero_le _, List.length_replicate.le, ?_⟩
  rw [List.length_replicate]
  decide

end Sys2Proof.Tests
end

section
/-! SUPPORT. The registers and the flag (10_state.md R20, R26): a register reads back what was written to it,
the comparisons alone write zf, and the conditional jumps alone read it. -/

namespace Sys2Proof.Machine

/-! ### Registers -/

/-- Settles O47: the one law of reading a register after a write, at the register itself and at another. -/
theorem registersReadBack : Obligations.RegistersReadBack := by
  intro s i j v
  exact ⟨by simp, fun hij => by simp [hij]⟩

/-! ### The writers of zf -/

/-- Every effect but a comparison's keeps zf. -/
theorem Effect.zf_eq {i : Instr} {s t : State} (h : Effect i s t)
    (hi : i.opcode ∉ [.cmp, .cmpNot, .lt, .gt]) : t.zf = s.zf := by
  cases h with
  | compared b hc => exact absurd hc hi
  | badRegister | dataOut | stackFull | stackEmpty | nothing | halt | writeReg | popped | stored
  | pushed | printed | jumped | notJumped => rfl

/-- A comparison of two good registers answers the same whatever zf held. -/
theorem intoZf_setZf {r1 r2 : Byte} (h1 : ValidReg r1) (h2 : ValidReg r2)
    (flag : Word → Word → Bool) (s : State) (b : Bool) :
    intoZf flag r1 r2 (s.setZf b) = intoZf flag r1 r2 s := by
  simp only [intoZf, withRegs_valid h1 h2]
  rfl

/-- A well-formed comparison overwrites zf: it answers the same whatever zf held. -/
theorem exec_compare_setZf {i : Instr} (hi : i.opcode ∈ [.cmp, .cmpNot, .lt, .gt])
    (hw : i.WellFormed) (s : State) (b : Bool) : exec i (s.setZf b) = exec i s := by
  cases i with
  | cmp r q | cmpNot r q | lt r q | gt r q =>
    exact intoZf_setZf (hw r (by simp [Instr.regOperands])) (hw q (by simp [Instr.regOperands])) _ s b
  | nop | hlt | moveLit | moveReg | moveRegMem | moveMemReg | add | sub | mul | pushLit | pushReg
  | pop | print | jmp | jmpZ | jmpNZ => simp [Instr.opcode] at hi

/-! ### The readers of zf -/

/-- The states differ at most in zf. -/
def SameButZf (t u : State) : Prop := t = { u with zf := t.zf }

/-- Two checked register operands: alike if raising is and what comes after is. -/
theorem withRegs_alike {Q : State → State → Prop} {s s' : State} {r1 r2 : Byte}
    {k k' : Fin 9 → Fin 9 → Result}
    (hr : ∀ kind info, Q (s.raise kind info) (s'.raise kind info))
    (hk : ∀ i j, Alike Q (k i j) (k' i j)) :
    Alike Q (withRegs r1 r2 s k) (withRegs r1 r2 s' k') :=
  withReg_alike hr fun i _ => withReg_alike hr fun j _ => hk i j

/-- An instruction that is no conditional jump goes the same way, but for zf, whatever zf holds. -/
theorem exec_setZf_alike {i : Instr} (hi : i.opcode ∉ [.jmpZ, .jmpNZ]) (s : State) (b : Bool) :
    Alike SameButZf (exec i s) (exec i (s.setZf b)) := by
  have raised : ∀ kind info, SameButZf (s.raise kind info) ((s.setZf b).raise kind info) :=
    fun _ _ => rfl
  cases i with
  | nop | hlt | jmp _ => exact .next rfl
  | moveLit r w | print r => exact withReg_alike raised fun _ _ => .next rfl
  | moveReg r q | add r q | sub r q | mul r q | cmp r q | cmpNot r q | lt r q | gt r q =>
    exact withRegs_alike raised fun _ _ => .next rfl
  | moveRegMem r a =>
    exact withReg_alike raised fun _ _ => loadWord_alike rfl raised fun _ => .next rfl
  | moveMemReg r a => exact withReg_alike raised fun _ _ => storeWord_alike rfl raised fun _ => rfl
  | pushLit w => exact push_alike rfl raised fun _ => rfl
  | pushReg r => exact withReg_alike raised fun _ _ => push_alike rfl raised fun _ => rfl
  | pop r => exact withReg_alike raised fun _ _ => pop_alike rfl raised fun _ => .next rfl
  | jmpZ _ | jmpNZ _ => simp [Instr.opcode] at hi

/-- JmpZ jumps exactly when zf = 1 (47_jump.md R191). -/
theorem exec_jmpZ (s : State) (a : Word) :
    exec (.jmpZ a) s = if s.zf = true then exec (.jmp a) s else .next s := by
  cases hz : s.zf <;> simp [exec, execJmpZ, execJmp, jumpIf, hz]

/-- JmpNZ jumps exactly when zf = 0 (47_jump.md R192). -/
theorem exec_jmpNZ (s : State) (a : Word) :
    exec (.jmpNZ a) s = if s.zf = false then exec (.jmp a) s else .next s := by
  cases hz : s.zf <;> simp [exec, execJmpNZ, execJmp, jumpIf, hz]

/-- Settles O44: the writers by the effects of an instruction, the readers by running it from two states that
differ in zf alone. -/
theorem zfWritersAndReaders : Obligations.ZfWritersAndReaders := by
  refine ⟨fun i s t hi h => ?_, fun i s t b hi hw h => ?_, fun i s t b hi h => ?_, fun s a => ?_⟩
  · exact (exec_effect h).zf_eq hi
  · exact (exec_compare_setZf hi hw s b).trans h
  · exact exec_setZf_alike hi s b t h
  · exact ⟨exec_jmpZ s a, exec_jmpNZ s a⟩

end Sys2Proof.Machine
end

section
/-! SUPPORT. Memory's accessors against one another (20_memory.md R57, R60), and the word operand that a
decoded instruction takes. -/

namespace Sys2Proof

/-! ### Word operands -/

theorem decode_byte_cons (op : Opcode) (bytes : List Byte) :
    decode (op.byte :: bytes) = decodeOperands op bytes := by
  simp [decode]

/-- The instructions made of a register and a word (30_encoding.md R83). -/
theorem layout_rw_mem {op : Opcode} {mk : Byte → Word → Instr} (h : op.layout = .rw mk) (r : Byte)
    (w : Word) : mk r w ∈ [.moveLit r w, .moveRegMem r w, .moveMemReg r w] := by
  cases op <;> cases h <;> simp

/-- The instructions made of a word alone (30_encoding.md R83). -/
theorem layout_w_mem {op : Opcode} {mk : Word → Instr} (h : op.layout = .w mk) (w : Word) :
    mk w ∈ [.pushLit w, .jmp w, .jmpZ w, .jmpNZ w] := by
  cases op <;> cases h <;> simp

/-- An instruction of a register and a word decodes to the word of its last two bytes, low byte first. -/
theorem mem_of_decode_rw {op : Opcode} {r lo hi : Byte} {bytes rest : List Byte} {i : Instr}
    (hop : op.format = .rw) (h : decode (op.byte :: r :: lo :: hi :: bytes) = .ok i rest) :
    i ∈ [.moveLit r (wordOfBytes lo hi), .moveRegMem r (wordOfBytes lo hi),
      .moveMemReg r (wordOfBytes lo hi)] := by
  rw [decode_byte_cons] at h
  cases hl : op.layout with
  | rw mk =>
    simp only [decodeOperands, hl, DecodeResult.ok.injEq] at h
    exact h.1 ▸ layout_rw_mem hl r _
  | n _ | r _ | rr _ | w _ => simp [Opcode.format, hl, Layout.format] at hop

/-- An instruction of a word alone decodes to the word of its two operand bytes, low byte first. -/
theorem mem_of_decode_w {op : Opcode} {lo hi : Byte} {bytes rest : List Byte} {i : Instr}
    (hop : op.format = .w) (h : decode (op.byte :: lo :: hi :: bytes) = .ok i rest) :
    i ∈ [.pushLit (wordOfBytes lo hi), .jmp (wordOfBytes lo hi), .jmpZ (wordOfBytes lo hi),
      .jmpNZ (wordOfBytes lo hi)] := by
  rw [decode_byte_cons] at h
  cases hl : op.layout with
  | w mk =>
    simp only [decodeOperands, hl, DecodeResult.ok.injEq] at h
    exact h.1 ▸ layout_w_mem hl _
  | n _ | r _ | rr _ | rw _ => simp [Opcode.format, hl, Layout.format] at hop

end Sys2Proof

namespace Sys2Proof.Machine

/-! ### Reading and writing memory -/

/-- A word is read where both its bytes are, low byte at the lower address (20_memory.md R54, R57). -/
theorem Memory.readWord_eq_some {m : Memory} {a : Nat} {w : Word} :
    m.readWord a = some w ↔
      ∃ lo hi, m.readByte a = some lo ∧ m.readByte (a + 1) = some hi ∧ wordOfBytes lo hi = w := by
  simp only [Memory.readByte_eq_some, Memory.readWord]
  constructor
  · intro h
    split at h
    · rename_i ha
      exact ⟨_, _, ⟨Nat.lt_of_succ_lt ha, rfl⟩, ⟨ha, rfl⟩, Option.some.inj h⟩
    · cases h
  · rintro ⟨_, _, ⟨-, rfl⟩, ⟨ha, rfl⟩, rfl⟩
    exact if_pos ha

/-- Reading a byte after one is stored in bounds. -/
theorem Memory.readByte_setByte {m : Memory} (hm : m.wf) {a : Nat} (ha : a < m.size.val) (b : Byte)
    (x : Nat) : (m.setByte a b).readByte x = if x = a then some b else m.readByte x := by
  simp only [Memory.readByte, Memory.setByte_size, Memory.byteAt_setByte hm]
  by_cases hx : x = a <;> simp [hx, ha]

/-- Reading a byte after `MemWrite(a, 2, v)` (20_memory.md R57, R60). -/
theorem Memory.readByte_writeWord {m m' : Memory} (hm : m.wf) {a : Nat} {v : Word}
    (h : m.writeWord a v = some m') (x : Nat) :
    m'.readByte x =
      if x = a + 1 then some (highByte v) else if x = a then some (lowByte v) else m.readByte x := by
  obtain ⟨ha, rfl⟩ := Memory.writeWord_eq_some.1 h
  have ha0 : a < m.size.val := Nat.lt_of_succ_lt ha
  rw [Memory.readByte_setByte (Memory.setByte_wf hm ha0 _) ha, Memory.readByte_setByte hm ha0]

/-- The two bytes of a written word, low byte at the lower address (20_memory.md R57). -/
theorem Memory.readByte_written {m m' : Memory} (hm : m.wf) {a : Nat} {v : Word}
    (h : m.writeWord a v = some m') :
    m'.readByte a = some (lowByte v) ∧ m'.readByte (a + 1) = some (highByte v) := by
  simp [Memory.readByte_writeWord hm h]

/-- A written word is read back (20_memory.md R60). -/
theorem Memory.readWord_writeWord {m m' : Memory} (hm : m.wf) {a : Nat} {v : Word}
    (h : m.writeWord a v = some m') : m'.readWord a = some v := by
  obtain ⟨hlo, hhi⟩ := Memory.readByte_written hm h
  exact Memory.readWord_eq_some.2 ⟨_, _, hlo, hhi, wordOfBytes_low_high v⟩

/-- Settles O49: the rules of reading after a word and after a byte is written. -/
theorem memoryReadsBackWrites : Obligations.MemoryReadsBackWrites := by
  intro m a hm
  refine ⟨fun w ha => ?_, fun b ha => ?_⟩
  · have h := (Memory.writeWord_eq_some (v := w)).2 ⟨ha, rfl⟩
    refine ⟨_, h, Memory.readWord_writeWord hm h, fun x hlo hhi => ?_⟩
    rw [Memory.readByte_writeWord hm h, if_neg hhi, if_neg hlo]
  · refine ⟨_, if_pos ha, ?_, fun x hx => ?_⟩
    · rw [Memory.readByte_setByte hm ha, if_pos rfl]
    · rw [Memory.readByte_setByte hm ha, if_neg hx]

/-- Settles O50: a word read, a word written and a word operand are each `wordOfBytes` of the two bytes
there. -/
theorem wordsAreLittleEndian : Obligations.WordsAreLittleEndian := by
  refine ⟨fun m a w h => ?_, fun m m' a w hm h => ?_, fun lo hi r bytes rest op i hb h => ?_⟩
  · obtain ⟨lo, hi, hlo, hhi, rfl⟩ := Memory.readWord_eq_some.1 h
    exact ⟨lo, hi, hlo, hhi, toNat_wordOfBytes lo hi⟩
  · obtain ⟨hlo, hhi⟩ := Memory.readByte_written hm h
    exact ⟨_, _, hlo, hhi, by rw [← toNat_wordOfBytes, wordOfBytes_low_high]⟩
  · refine ⟨wordOfBytes lo hi, toNat_wordOfBytes lo hi, ?_⟩
    obtain ⟨hop, rfl⟩ | ⟨hop, rfl⟩ := hb
    · exact List.mem_append_right [.moveLit _ _, .moveRegMem _ _, .moveMemReg _ _]
        (mem_of_decode_w hop h)
    · exact List.mem_append_left [.pushLit _, .jmp _, .jmpZ _, .jmpNZ _] (mem_of_decode_rw hop h)

end Sys2Proof.Machine
end

section
/-! SUPPORT. The bytes that are no opcode's (30_encoding.md R85, R86): which they are, that `decode` rejects
them and no others as illegal, and the step that fetches one. -/

namespace Sys2Proof

/-- The decoder fails on a byte exactly where no opcode has it (R85). -/
theorem decodeOpcode_eq_none_iff {b : Byte} : decodeOpcode b = none ↔ ∀ op : Opcode, op.byte ≠ b := by
  constructor
  · rintro h op rfl
    simp at h
  · intro h
    exact Option.eq_none_iff_forall_ne_some.2 fun op hop => h op (byte_of_decodeOpcode hop)

/-- The illegal opcode bytes, by the ranges the opcode map leaves out (R86). -/
theorem decodeOpcode_eq_none_iff_toNat {b : Byte} : decodeOpcode b = none ↔
    (0x02 ≤ b.toNat ∧ b.toNat ≤ 0x0F) ∨ (0x17 ≤ b.toNat ∧ b.toNat ≤ 0x19) ∨
      (0x22 ≤ b.toNat ∧ b.toNat ≤ 0x2F) ∨ (0x33 ≤ b.toNat ∧ b.toNat ≤ 0xFF) := by
  have hb : b.toNat < 256 := b.isLt
  unfold decodeOpcode
  split
  case h_21 =>
    simp only [true_iff, imp_false] at *
    omega
  all_goals
    simp only [reduceCtorEq, false_iff]
    omega

/-- There are 236 illegal opcode bytes (R86): 31 below 0x33, and the 205 from there on. -/
theorem countP_illegalOpcode :
    ((List.range 256).countP fun n => (decodeOpcode (BitVec.ofNat 8 n)).isNone) = 236 := by
  have below : ((List.range 0x33).countP fun n => (decodeOpcode (BitVec.ofNat 8 n)).isNone) = 31 := by
    decide
  have above : ∀ n ∈ (List.range 205).map (0x33 + ·),
      (decodeOpcode (BitVec.ofNat 8 n)).isNone = true := by
    simp only [List.mem_map, List.mem_range, Option.isNone_iff_eq_none,
      decodeOpcode_eq_none_iff_toNat, BitVec.toNat_ofNat]
    omega
  rw [show 256 = 0x33 + 205 from rfl, List.range_add, List.countP_append, below,
    List.countP_eq_length.2 above, List.length_map, List.length_range]

/-- Reading operands never rejects the opcode. -/
theorem decodeOperands_ne_illegalOpcode (op : Opcode) (bytes : List Byte) (b : Byte) :
    decodeOperands op bytes ≠ .illegalOpcode b := by
  unfold decodeOperands
  cases op.layout with
  | n _ => simp
  | r _ | rr _ | rw _ | w _ => dsimp only; split <;> simp

/-- A list of bytes is rejected as illegal exactly where its first byte is no opcode's. -/
theorem decode_cons_eq_illegalOpcode_iff {a b : Byte} {rest : List Byte} :
    decode (a :: rest) = .illegalOpcode b ↔ a = b ∧ decodeOpcode a = none := by
  cases h : decodeOpcode a with
  | none => simp [decode, h]
  | some op => simp [decode, h, decodeOperands_ne_illegalOpcode]

/-- Settles O4: the two directions of the opcode map, and `decode` rejecting by its first byte. -/
theorem opcodeDecodedFromItsByteAlone : Obligations.OpcodeDecodedFromItsByteAlone := by
  refine ⟨decodeOpcode_byte, fun b hb => ?_, fun op bytes b h => ?_⟩
  · have hnone := decodeOpcode_eq_none_iff.2 hb
    exact ⟨hnone, fun rest => decode_cons_eq_illegalOpcode_iff.2 ⟨rfl, hnone⟩⟩
  · simpa using (decode_cons_eq_illegalOpcode_iff.1 h).2

end Sys2Proof

namespace Sys2Proof.Machine

/-- The step that fetches an illegal opcode byte raises DecodeError, pc being past the byte (R86). -/
theorem step_illegalOpcode {s : State} {b : Byte} (hs : s.status = .running)
    (hb : s.mem.readByte s.pc.toNat = some b) (hd : decodeOpcode b = none) :
    step s = .next (State.raise { s with pc := s.pc + 1 } .decodeError (b.setWidth 17)) := by
  obtain ⟨hlt, rfl⟩ := Memory.readByte_eq_some.1 hb
  rw [step_running hs, fetchInstr, fetchByte_in hlt]
  simp only [hd]
  rfl

/-- Settles O5: the ranges by the opcode map, their number by counting, and the fault by the step's rule. -/
theorem illegalOpcodeRaisesDecodeError : Obligations.IllegalOpcodeRaisesDecodeError := by
  refine ⟨fun b => decodeOpcode_eq_none_iff_toNat, countP_illegalOpcode, fun s b hs hb hd => ?_⟩
  exact ⟨_, step_illegalOpcode hs hb hd, rfl, rfl, rfl⟩

end Sys2Proof.Machine
end

section
/-! SUPPORT. NOP and HLT (41_nop_halt.md R130, R131): what each does, and the step that fetches one. -/

namespace Sys2Proof.Machine

/-! ### The step at an opcode's byte -/

/-- The step that fetches an opcode's byte goes on to its operands, pc being past the byte (R110). -/
theorem step_opcode {s : State} {op : Opcode} (hs : s.status = .running)
    (hb : s.mem.readByte s.pc.toNat = some op.byte) :
    step s = fetchOperands op.layout { s with pc := s.pc + 1 } exec := by
  obtain ⟨hlt, hbyte⟩ := Memory.readByte_eq_some.1 hb
  simp [step_running hs, fetchInstr, fetchByte_in hlt, hbyte]

/-- An opcode with no operands runs its instruction with pc one further (R113). -/
theorem step_layout_n {s : State} {op : Opcode} {i : Instr} (hi : op.layout = .n i)
    (hs : s.status = .running) (hb : s.mem.readByte s.pc.toNat = some op.byte) :
    step s = exec i { s with pc := s.pc + 1 } := by
  rw [step_opcode hs hb, hi, fetchOperands]

/-! ### The two instructions -/

@[simp] theorem exec_nop (s : State) : exec .nop s = .next s := rfl

@[simp] theorem exec_hlt (s : State) : exec .hlt s = .next { s with status := .halted } := rfl

/-- Settles O25: the step at an opcode with no operands, run on NOP's effect. -/
theorem nopOnlyAdvancesPc : Obligations.NopOnlyAdvancesPc := by
  refine ⟨exec_nop, fun s hs hb => ?_⟩
  rw [step_layout_n (op := .nop) rfl hs hb, exec_nop]

/-- Settles O26: the step at an opcode with no operands, run on HLT's effect; HALTED is an ended state. -/
theorem hltEntersHalted : Obligations.HltEntersHalted := by
  refine ⟨exec_hlt, fun s hs hb => ⟨?_, step_ended (by simp)⟩⟩
  rw [step_layout_n (op := .hlt) rfl hs hb, exec_hlt]

end Sys2Proof.Machine
end

section
/-! SUPPORT. Data movement (42_move.md R140, R142, R143): the step at an opcode that takes a register and a
word, and what each such instruction does on a register the index byte names. -/

namespace Sys2Proof.Machine

/-! ### The step at an opcode that takes a register and a word -/

theorem Memory.bytesFrom_succ {m : Memory} {a : Nat} {b : Byte} (h : m.readByte a = some b) (n : Nat) :
    m.bytesFrom a (n + 1) = b :: m.bytesFrom (a + 1) n := by
  obtain ⟨ha, rfl⟩ := Memory.readByte_eq_some.1 h
  exact if_pos ha

theorem cutAt_rw_iff {room n : Nat} :
    CutAt .rw room n ↔ room = 1 ∧ n = 1 ∨ (room = 2 ∨ room = 3) ∧ n = 2 := by
  simp [CutAt]

/-- A step that leads to a raised fault has that fault, whatever state raised it. -/
theorem StepFaults.of_raise {s u : State} {kind : FaultKind} {info : Pc}
    (h : step s = .next (u.raise kind info)) : StepFaults s kind info :=
  ⟨_, h, rfl, rfl, rfl⟩

/-- Every instruction of a register and a word checks the register before all else (R205). -/
theorem exec_rw_invalidRegister {op : Opcode} {mk : Byte → Word → Instr} (hl : op.layout = .rw mk)
    {r : Byte} (hr : 8 < r.toNat) (w : Word) (s : State) :
    exec (mk r w) s = .next (s.raise .invalidRegister (r.setWidth 17)) := by
  have hv : ¬ ValidReg r := Nat.not_le.2 hr
  have hmem := layout_rw_mem hl r w
  simp only [List.mem_cons, List.not_mem_nil, or_false] at hmem
  rcases hmem with h | h | h <;> rw [h] <;> exact withReg_invalid hv s _

section

variable {s : State} {op : Opcode} {mk : Byte → Word → Instr}
  (hl : op.layout = .rw mk) (hs : s.status = .running)
  (hb : s.mem.readByte s.pc.toNat = some op.byte)

include hl hs hb

/-- With both operands in memory, the instruction they make runs with pc past it (R113). -/
theorem step_layout_rw {r lo hi : Byte} (hr : s.mem.readByte (s.pc.toNat + 1) = some r)
    (hlo : s.mem.readByte (s.pc.toNat + 2) = some lo)
    (hhi : s.mem.readByte (s.pc.toNat + 3) = some hi) :
    step s = exec (mk r (wordOfBytes lo hi)) { s with pc := s.pc + 4 } := by
  have hdec : decodeOperands op (s.mem.bytesFrom (s.pc.toNat + 1) 3) =
      .ok (mk r (wordOfBytes lo hi)) [] := by
    rw [Memory.bytesFrom_succ hr, Memory.bytesFrom_succ hlo, Memory.bytesFrom_succ hhi]
    simp only [decodeOperands, hl, Memory.bytesFrom]
  rw [step_opcode hs hb]
  rcases fetchOperands_cases op (Memory.readByte_eq_some.1 hb).1 exec with
    ⟨n, hcut, -, -⟩ | ⟨i, rest, hop, hok, -, e⟩
  · cases hdec.symm.trans hcut
  · cases hdec.symm.trans hok
    rw [e, Instr.length, hop, Opcode.format, hl]
    rfl

/-- With an operand cut off, OutOfBounds is raised where that operand starts (R113). -/
theorem step_layout_rw_cut (hsize : s.mem.size.val ≤ s.pc.toNat + 3) :
    ∃ n, CutAt .rw (s.mem.size.val - s.pc.toNat) n ∧
      StepFaults s .outOfBounds (s.pc + BitVec.ofNat 17 n) := by
  have hf : op.format = .rw := by rw [Opcode.format, hl, Layout.format]
  rcases fetchOperands_cases op (Memory.readByte_eq_some.1 hb).1 exec with
    ⟨n, -, hcut, e⟩ | ⟨i, rest, hop, -, hlen, -⟩
  · exact ⟨n, hf ▸ hcut, .of_raise ((step_opcode hs hb).trans e)⟩
  · rw [Instr.length, hop, hf, Format.length] at hlen
    omega

theorem stepFaults_rw_registerMissing (hsize : s.mem.size.val ≤ s.pc.toNat + 1) :
    StepFaults s .outOfBounds (s.pc + 1) := by
  obtain ⟨n, hcut, hfault⟩ := step_layout_rw_cut hl hs hb (by omega)
  obtain rfl : n = 1 := by rw [cutAt_rw_iff] at hcut; omega
  exact hfault

theorem stepFaults_rw_wordMissing (hreg : s.pc.toNat + 1 < s.mem.size.val)
    (hsize : s.mem.size.val ≤ s.pc.toNat + 3) : StepFaults s .outOfBounds (s.pc + 2) := by
  obtain ⟨n, hcut, hfault⟩ := step_layout_rw_cut hl hs hb hsize
  obtain rfl : n = 2 := by rw [cutAt_rw_iff] at hcut; omega
  exact hfault

/-- With both operands in memory and a bad index byte, InvalidRegister is raised. -/
theorem stepFaults_rw_invalidRegister {r lo hi : Byte}
    (hr : s.mem.readByte (s.pc.toNat + 1) = some r)
    (hlo : s.mem.readByte (s.pc.toNat + 2) = some lo)
    (hhi : s.mem.readByte (s.pc.toNat + 3) = some hi) (hbad : 8 < r.toNat) :
    StepFaults s .invalidRegister (r.setWidth 17) :=
  .of_raise ((step_layout_rw hl hs hb hr hlo hhi).trans (exec_rw_invalidRegister hl hbad _ _))

end

/-! ### What each instruction does -/

theorem exec_moveLit_named {r : Byte} {d : Fin 9} (hd : r.toNat = d.val) (w : Word) (s : State) :
    exec (.moveLit r w) s = .next (s.writeReg d w) :=
  withReg_named hd s _

theorem exec_moveRegMem_named {r : Byte} {d : Fin 9} (hd : r.toNat = d.val) (a : Word) (s : State) :
    exec (.moveRegMem r a) s = loadWord a s fun v => .next (s.writeReg d v) :=
  withReg_named hd s _

theorem exec_moveMemReg_named {r : Byte} {x : Fin 9} (hx : r.toNat = x.val) (a : Word) (s : State) :
    exec (.moveMemReg r a) s = storeWord a (s.readReg x) s :=
  withReg_named hx s _

theorem loadWord_in {a v : Word} {s : State} (h : s.mem.readWord a.toNat = some v)
    (k : Word → Result) : loadWord a s k = k v := by
  simp [loadWord, h]

theorem loadWord_out {a : Word} {s : State} (h : s.mem.size.val ≤ a.toNat + 1) (k : Word → Result) :
    loadWord a s k = .next (s.raise .outOfBounds (a.setWidth 17)) := by
  rcases loadWord_cases a s k with ⟨hin, -⟩ | ⟨-, e⟩
  · exact absurd hin (Nat.not_lt.2 h)
  · exact e

theorem storeWord_in {a v : Word} {s : State} {m : Memory}
    (h : s.mem.writeWord a.toNat v = some m) : storeWord a v s = .next { s with mem := m } := by
  simp [storeWord, h]

theorem storeWord_out {a : Word} {s : State} (h : s.mem.size.val ≤ a.toNat + 1) (v : Word) :
    storeWord a v s = .next (s.raise .outOfBounds (a.setWidth 17)) := by
  rcases storeWord_cases a v s with ⟨m, hm, -⟩ | ⟨-, e⟩
  · exact absurd (Memory.writeWord_eq_some.1 hm).1 (Nat.not_lt.2 h)
  · exact e

/-! ### What each update leaves unchanged -/

theorem onlyReg_writeReg (d : Fin 9) (v : Word) (s : State) : OnlyReg d s (s.writeReg d v) :=
  ⟨fun i hi => by simp [hi], rfl, rfl, ⟨rfl, rfl⟩, fun _ => rfl, ⟨rfl, rfl, rfl⟩, rfl⟩

theorem onlyMem_writeWord {s : State} {m : Memory} {a : Nat} {v : Word} (hw : s.mem.wf)
    (h : s.mem.writeWord a v = some m) : OnlyMem a 2 s { s with mem := m } := by
  have hmem : SameMemBut a 2 s { s with mem := m } := fun b hb => by
    rw [Memory.readByte_writeWord hw h, if_neg (by omega), if_neg (by omega)]
  exact ⟨fun _ => rfl, rfl, rfl, ⟨rfl, rfl⟩, hmem, ⟨rfl, rfl, rfl⟩, rfl⟩

/-! ### The three instructions from their bytes -/

/-- Settles O29: the step at a register and a word, run on MoveLit's effect. -/
theorem moveLitFromItsBytes : Obligations.MoveLitFromItsBytes := by
  intro s hs hb
  have hl : Opcode.moveLit.layout = .rw .moveLit := rfl
  refine ⟨stepFaults_rw_registerMissing hl hs hb, stepFaults_rw_wordMissing hl hs hb,
    fun r lo hi hr hlo hhi =>
      ⟨stepFaults_rw_invalidRegister hl hs hb hr hlo hhi, fun d hd => ?_⟩⟩
  have hstep := step_layout_rw hl hs hb hr hlo hhi
  rw [exec_moveLit_named hd] at hstep
  exact ⟨_, hstep, by simp [wordOfBytes], rfl, onlyReg_writeReg d _ _⟩

/-- Settles O32: the step at a register and a word, run on MoveRegMem's effect, the data access in bounds
or not. -/
theorem moveRegMemFromItsBytes : Obligations.MoveRegMemFromItsBytes := by
  intro s hs hb
  have hl : Opcode.moveRegMem.layout = .rw .moveRegMem := rfl
  refine ⟨stepFaults_rw_registerMissing hl hs hb, stepFaults_rw_wordMissing hl hs hb,
    fun r lo hi hr hlo hhi =>
      ⟨stepFaults_rw_invalidRegister hl hs hb hr hlo hhi, fun d a hd ha => ?_⟩⟩
  have hstep := step_layout_rw hl hs hb hr hlo hhi
  obtain rfl : a = wordOfBytes lo hi := ha
  rw [exec_moveRegMem_named hd] at hstep
  refine ⟨fun hout =>
    .of_raise (hstep.trans (loadWord_out (s := { s with pc := s.pc + 4 }) hout _)),
    fun l h hload hload' => ?_⟩
  have hword : s.mem.readWord (wordOfBytes lo hi).toNat = some (wordOfBytes l h) :=
    Memory.readWord_eq_some.2 ⟨l, h, hload, hload', rfl⟩
  exact ⟨_, hstep.trans (loadWord_in (s := { s with pc := s.pc + 4 }) hword _),
    by simp [wordOfBytes], rfl, onlyReg_writeReg d _ _⟩

/-- Settles O34: the step at a register and a word, run on MoveMemReg's effect, the data access in bounds
or not. -/
theorem moveMemRegFromItsBytes : Obligations.MoveMemRegFromItsBytes := by
  intro s hw hs hb
  have hl : Opcode.moveMemReg.layout = .rw .moveMemReg := rfl
  refine ⟨stepFaults_rw_registerMissing hl hs hb, stepFaults_rw_wordMissing hl hs hb,
    fun r lo hi hr hlo hhi =>
      ⟨stepFaults_rw_invalidRegister hl hs hb hr hlo hhi, fun x a hx ha => ?_⟩⟩
  have hstep := step_layout_rw hl hs hb hr hlo hhi
  obtain rfl : a = wordOfBytes lo hi := ha
  rw [exec_moveMemReg_named hx] at hstep
  refine ⟨fun hout => ?_, fun hin => ?_⟩
  · have hraise := hstep.trans (storeWord_out (s := { s with pc := s.pc + 4 }) hout _)
    exact ⟨.of_raise hraise, fun t ht => by cases hraise.symm.trans ht; exact fun _ => rfl⟩
  · have hstore := (Memory.writeWord_eq_some (v := s.readReg x)).2 ⟨hin, rfl⟩
    obtain ⟨hlow, hhigh⟩ := Memory.readByte_written hw hstore
    exact ⟨_, hstep.trans (storeWord_in (s := { s with pc := s.pc + 4 }) hstore),
      hlow, hhigh, rfl, onlyMem_writeWord hw hstore⟩

end Sys2Proof.Machine
end

section
/-! SUPPORT. Arithmetic (43_arithmetic.md R150 to R153): each wrapped operation as a number, and where the
result goes. -/

namespace Sys2Proof

/-- An opcode that takes two registers decodes to its instruction on the next two bytes (30_encoding.md
R81, R83). -/
theorem decode_layout_rr {op : Opcode} {mk : Byte → Byte → Instr} (hl : op.layout = .rr mk)
    (r q : Byte) (rest : List Byte) : decode (op.byte :: r :: q :: rest) = .ok (mk r q) rest := by
  rw [decode_byte_cons]
  simp only [decodeOperands, hl]

end Sys2Proof

namespace Sys2Proof.Machine

/-! ### The wrapped operations as numbers -/

theorem toNat_wrapAdd (v w : Word) : (wrapAdd v w).toNat = (v.toNat + w.toNat) % 65536 :=
  BitVec.toNat_ofNat _ _

/-- The remainder of an integer difference, never negative: 0 - 1 wraps to 65535 (R151). -/
theorem toNat_wrapSub (v w : Word) :
    ((wrapSub v w).toNat : Int) = ((v.toNat : Int) - (w.toNat : Int)) % 65536 := by
  rw [wrapSub, BitVec.toNat_ofInt]
  exact Int.toNat_of_nonneg (Int.emod_nonneg _ (by decide))

theorem toNat_wrapMul (v w : Word) : (wrapMul v w).toNat = (v.toNat * w.toNat) % 65536 :=
  BitVec.toNat_ofNat _ _

/-! ### The result in ACC -/

/-- On two named registers the operation completes: ACC gets its result on the values they held before,
ACC among them or not, and nothing else changes (R153). -/
theorem intoAcc_named {r q : Byte} {x y : Fin 9} (hr : r.toNat = x.val) (hq : q.toNat = y.val)
    (op : Word → Word → Word) (s : State) :
    ∃ t, intoAcc op r q s = .next t ∧ t.readReg 8 = op (s.readReg x) (s.readReg y) ∧
      OnlyReg 8 s t :=
  ⟨_, withRegs_named hr hq s _, by simp [accIndex], onlyReg_writeReg 8 _ s⟩

/-- Settles O35: the rule of storing into ACC, with each operation's result read as a number. -/
theorem arithmeticWrapsIntoAcc : Obligations.ArithmeticWrapsIntoAcc := by
  intro s r q x y hr hq
  obtain ⟨tAdd, eAdd, accAdd, onlyAdd⟩ := intoAcc_named hr hq wrapAdd s
  obtain ⟨tSub, eSub, accSub, onlySub⟩ := intoAcc_named hr hq wrapSub s
  obtain ⟨tMul, eMul, accMul, onlyMul⟩ := intoAcc_named hr hq wrapMul s
  exact ⟨⟨tAdd, eAdd, by rw [accAdd, toNat_wrapAdd], onlyAdd⟩,
    ⟨tSub, eSub, by rw [accSub, toNat_wrapSub], onlySub⟩,
    ⟨tMul, eMul, by rw [accMul, toNat_wrapMul], onlyMul⟩,
    decode_layout_rr (op := .add) rfl r q [], decode_layout_rr (op := .sub) rfl r q [],
    decode_layout_rr (op := .mul) rfl r q []⟩

end Sys2Proof.Machine
end

section
/-! SUPPORT. Comparisons (46_compare.md R180 to R184): the truth each flag computes, and where it goes. -/

namespace Sys2Proof.Machine

/-! ### The flags as comparisons of numbers -/

theorem flagEq_iff (v w : Word) : flagEq v w = true ↔ v.toNat = w.toNat := decide_eq_true_iff

theorem flagNe_iff (v w : Word) : flagNe v w = true ↔ v.toNat ≠ w.toNat := decide_eq_true_iff

theorem flagLt_iff (v w : Word) : flagLt v w = true ↔ v.toNat < w.toNat := decide_eq_true_iff

theorem flagGt_iff (v w : Word) : flagGt v w = true ↔ v.toNat > w.toNat := decide_eq_true_iff

/-! ### The result in zf -/

theorem onlyZf_setZf (b : Bool) (s : State) : OnlyZf s (s.setZf b) :=
  ⟨fun _ => rfl, rfl, ⟨rfl, rfl⟩, fun _ => rfl, ⟨rfl, rfl, rfl⟩, rfl⟩

/-- On two named registers the comparison completes: zf becomes its flag of the values they hold, whatever
zf held, and nothing else changes (R184). -/
theorem intoZf_named {r q : Byte} {x y : Fin 9} (hr : r.toNat = x.val) (hq : q.toNat = y.val)
    (flag : Word → Word → Bool) (s : State) :
    ∃ t, intoZf flag r q s = .next t ∧ t.zf = flag (s.readReg x) (s.readReg y) ∧ OnlyZf s t :=
  ⟨_, withRegs_named hr hq s _, State.setZf_zf s _, onlyZf_setZf _ s⟩

/-- Settles O42: the rule of overwriting zf, with each flag read as a comparison of numbers. -/
theorem comparisonsOverwriteZf : Obligations.ComparisonsOverwriteZf := by
  intro s r q x y hr hq
  obtain ⟨tEq, eEq, zfEq, onlyEq⟩ := intoZf_named hr hq flagEq s
  obtain ⟨tNe, eNe, zfNe, onlyNe⟩ := intoZf_named hr hq flagNe s
  obtain ⟨tLt, eLt, zfLt, onlyLt⟩ := intoZf_named hr hq flagLt s
  obtain ⟨tGt, eGt, zfGt, onlyGt⟩ := intoZf_named hr hq flagGt s
  exact ⟨⟨tEq, eEq, by rw [zfEq, flagEq_iff], onlyEq⟩, ⟨tNe, eNe, by rw [zfNe, flagNe_iff], onlyNe⟩,
    ⟨tLt, eLt, by rw [zfLt, flagLt_iff], onlyLt⟩, ⟨tGt, eGt, by rw [zfGt, flagGt_iff], onlyGt⟩⟩

end Sys2Proof.Machine
end

section
/-! SUPPORT. Jumps (47_jump.md R190 to R193): where pc goes, that nothing else does, and the two fetches around
a jump: its operand's, and the next opcode's at the target. -/

namespace Sys2Proof.Machine

/-! ### What a jump does -/

@[simp] theorem exec_jmp (a : Word) (s : State) : exec (.jmp a) s = .next (s.jumpTo a) := rfl

/-- Zero-extending the target keeps its value (R193). -/
theorem State.toNat_jumpTo_pc (s : State) (a : Word) : (s.jumpTo a).pc.toNat = a.toNat :=
  BitVec.toNat_setWidth_of_le (by decide)

theorem onlyPc_refl (s : State) : OnlyPc s s :=
  ⟨fun _ => rfl, rfl, ⟨rfl, rfl⟩, fun _ => rfl, ⟨rfl, rfl, rfl⟩, rfl⟩

theorem onlyPc_jumpTo (s : State) (a : Word) : OnlyPc s (s.jumpTo a) :=
  ⟨fun _ => rfl, rfl, ⟨rfl, rfl⟩, fun _ => rfl, ⟨rfl, rfl, rfl⟩, rfl⟩

/-- A jump completes, taken or not, and touches pc alone (R191 to R193). -/
theorem jumpIf_completes (taken : Bool) (a : Word) (s : State) :
    ∃ t, jumpIf taken a s = .next t ∧
      t.pc.toNat = (if taken then a.toNat else s.pc.toNat) ∧ OnlyPc s t := by
  cases taken with
  | true => exact ⟨s.jumpTo a, rfl, s.toNat_jumpTo_pc a, onlyPc_jumpTo s a⟩
  | false => exact ⟨s, rfl, rfl, onlyPc_refl s⟩

/-- Every effect but a jump's keeps pc. -/
theorem Effect.pc_eq {i : Instr} {s t : State} (h : Effect i s t)
    (hi : i.opcode ∉ [.jmp, .jmpZ, .jmpNZ]) : t.pc = s.pc := by
  cases h with
  | jumped a hj => rcases hj with rfl | ⟨rfl, -⟩ | ⟨rfl, -⟩ <;> simp [Instr.opcode] at hi
  | badRegister | dataOut | stackFull | stackEmpty | nothing | halt | writeReg | popped | stored
  | pushed | printed | compared | notJumped => rfl

/-! ### The fetches around a jump -/

theorem fetchByte_of_readByte {s : State} {b : Byte} (h : s.mem.readByte s.pc.toNat = some b)
    (k : Byte → State → Result) : fetchByte s k = k b { s with pc := s.pc + 1 } := by
  obtain ⟨hlt, rfl⟩ := Memory.readByte_eq_some.1 h
  exact fetchByte_in hlt k

/-- The step raises OutOfBounds(pc) where no opcode byte can be fetched (R111). -/
theorem stepFaults_opcodeMissing {s : State} (hs : s.status = .running)
    (hout : s.mem.size.val ≤ s.pc.toNat) : StepFaults s .outOfBounds s.pc := by
  refine .of_raise (u := s) ?_
  rw [step_running hs, fetchInstr, fetchByte_out hout]

/-- The step at an opcode that takes a word raises OutOfBounds where the word starts, if any of it is out of
memory (R112, R113). -/
theorem stepFaults_w_wordMissing {s : State} {op : Opcode} {mk : Word → Instr} (hl : op.layout = .w mk)
    (hs : s.status = .running) (hb : s.mem.readByte s.pc.toNat = some op.byte)
    (hsize : s.mem.size.val ≤ s.pc.toNat + 2) : StepFaults s .outOfBounds (s.pc + 1) := by
  have hpc : (s.pc + 1).toNat = s.pc.toNat + 1 :=
    toNat_pc_add 1 (by omega) (Memory.readByte_eq_some.1 hb).1
  have hout : s.mem.size.val ≤ (s.pc + 1).toNat + 1 := by omega
  refine .of_raise (u := { s with pc := s.pc + 1 }) ?_
  rw [step_opcode hs hb, hl, fetchOperands, fetchWord_out hout]

/-- Settles O45: what a jump does, that no other effect moves pc, and the fetches around a jump. -/
theorem jumpsAreAbsolute : Obligations.JumpsAreAbsolute := by
  refine ⟨fun s a => ⟨jumpIf_completes true a s, jumpIf_completes s.zf a s, ?_⟩,
    fun i s t hi h => (exec_effect h).pc_eq hi, fun s t a hs hout h => ?_,
    fun s t a b k hb h => ?_, fun s op hop hs hb hsize => ?_⟩
  · obtain ⟨t, ht, hpc, honly⟩ := jumpIf_completes (!s.zf) a s
    exact ⟨t, ht, by cases hz : s.zf <;> simpa [hz] using hpc, honly⟩
  · cases (exec_jmp a s).symm.trans h
    exact stepFaults_opcodeMissing hs (by rwa [State.toNat_jumpTo_pc])
  · cases (exec_jmp a s).symm.trans h
    exact fetchByte_of_readByte (by rwa [State.toNat_jumpTo_pc]) k
  · obtain ⟨mk, hl⟩ : ∃ mk, op.layout = .w mk := by
      simp only [List.mem_cons, List.not_mem_nil, or_false] at hop
      rcases hop with rfl | rfl | rfl <;> exact ⟨_, rfl⟩
    exact stepFaults_w_wordMissing hl hs hb hsize

end Sys2Proof.Machine
end

section
/-! SUPPORT. Ended runs and their restart (60_exceptions.md R213, 70_reset_and_hazards.md R230): steps do not
leave an ended state, and what the host's `load` gives is a reset state but for its memory. -/

namespace Sys2Proof.Machine

/-- No number of steps leaves HALTED or FAULTED (log 1). -/
theorem State.runFor_ended {s : State} (h : s.status ≠ .running) (n : Nat) : s.runFor n = .next s := by
  induction n with
  | zero => exact s.runFor_zero
  | succ n ih => rw [State.runFor_succ (step_ended h), ih]

/-- A loaded state is as the host's reset leaves it, which keeps memory (R36, R230). -/
theorem State.hostReset_of_load {image : List Byte} {s : State} (h : State.load image = .next s) :
    s.hostReset = s := by
  simp only [State.load] at h
  split at h
  · cases h; rfl
  · cases h

theorem State.hostReset_status_running (s : State) : s.hostReset.status = .running := rfl

/-- Settles O14: no steps leave an ended state; the host's reset gives RUNNING, and so does load, whose states
the reset keeps. -/
theorem haltedIsTerminal : Obligations.HaltedIsTerminal := by
  refine ⟨fun s n hs => State.runFor_ended (by simp [hs]) n, State.hostReset_status_running,
    fun image s h => ?_⟩
  rw [← State.hostReset_of_load h]
  exact s.hostReset_status_running

end Sys2Proof.Machine
end

section
/-! SUPPORT. Steps always complete (70_reset_and_hazards.md R238): each shared operation answers a next state where
what comes after it does, hence every instruction does, hence every step. -/

namespace Sys2Proof.Machine

/-- The outcome is a next state; FAULTED is one (log 1). -/
def AnswersNext (x : Result) : Prop := ∃ t, x = .next t

theorem AnswersNext.next (t : State) : AnswersNext (.next t) := ⟨t, rfl⟩

theorem withReg_answersNext {r : Byte} {s : State} {k : Fin 9 → Result} (hk : ∀ d, AnswersNext (k d)) :
    AnswersNext (withReg r s k) := by
  rcases withReg_cases r s k with ⟨_, e⟩ | ⟨-, e⟩
  · exact e ▸ hk _
  · exact ⟨_, e⟩

theorem withRegs_answersNext {r q : Byte} {s : State} {k : Fin 9 → Fin 9 → Result}
    (hk : ∀ d x, AnswersNext (k d x)) : AnswersNext (withRegs r q s k) :=
  withReg_answersNext fun d => withReg_answersNext fun x => hk d x

theorem loadWord_answersNext {a : Word} {s : State} {k : Word → Result} (hk : ∀ v, AnswersNext (k v)) :
    AnswersNext (loadWord a s k) := by
  rcases loadWord_cases a s k with ⟨-, e⟩ | ⟨-, e⟩
  · exact e ▸ hk _
  · exact ⟨_, e⟩

theorem storeWord_answersNext (a v : Word) (s : State) : AnswersNext (storeWord a v s) := by
  rcases storeWord_cases a v s with ⟨_, -, e⟩ | ⟨-, e⟩ <;> exact ⟨_, e⟩

theorem push_answersNext (v : Word) (s : State) : AnswersNext (push v s) := by
  rcases push_cases v s with ⟨_, e⟩ | ⟨-, e⟩ <;> exact ⟨_, e⟩

theorem pop_answersNext {s : State} {k : Word → State → Result} (hk : ∀ v t, AnswersNext (k v t)) :
    AnswersNext (pop s k) := by
  rcases pop_cases s k with ⟨_, e⟩ | ⟨-, e⟩
  · exact e ▸ hk _ _
  · exact ⟨_, e⟩

/-- No arm of `exec` faults or refuses. -/
theorem exec_answersNext (i : Instr) (s : State) : AnswersNext (exec i s) := by
  cases i with
  | nop | hlt | jmp | jmpZ | jmpNZ => exact .next _
  | moveLit | print => exact withReg_answersNext fun _ => .next _
  | moveReg | add | sub | mul | cmp | cmpNot | lt | gt => exact withRegs_answersNext fun _ _ => .next _
  | moveRegMem => exact withReg_answersNext fun _ => loadWord_answersNext fun _ => .next _
  | moveMemReg => exact withReg_answersNext fun _ => storeWord_answersNext _ _ _
  | pushLit => exact push_answersNext _ _
  | pushReg => exact withReg_answersNext fun _ => push_answersNext _ _
  | pop => exact withReg_answersNext fun _ => pop_answersNext fun _ _ => .next _

/-- Settles O9: the fetch raises, which is a next state, or hands on an instruction, which answers one. -/
theorem everyStepCompletes : Obligations.EveryStepCompletes := by
  intro s hs
  rw [step_running hs]
  rcases fetchInstr_cases s exec with ⟨-, -, e⟩ | ⟨_, -, -, -, e⟩ | ⟨_, _, -, -, -, e⟩ | ⟨i, _, -, -, -, e⟩
  · exact ⟨_, e⟩
  · exact ⟨_, e⟩
  · exact ⟨_, e⟩
  · exact e ▸ exec_answersNext i _

end Sys2Proof.Machine
end

section
/-! SUPPORT. Where execution begins (70_reset_and_hazards.md R231, R232): a loaded image lies at address 0, and pc
is there. -/

namespace Sys2Proof.Machine

/-- A loaded image's bytes are read at their own positions (20_memory.md R63). -/
theorem State.readByte_of_load {image : List Byte} {s : State} (h : State.load image = .next s)
    {i : Nat} (hi : i < image.length) : s.mem.readByte i = some image[i] := by
  simp only [State.load] at h
  split at h
  · cases h
    have hcell : cellLookup (cellsOfBytes 0 image) i = image[i] := by
      simpa using cellLookup_cellsOfBytes 0 image i hi
    exact Memory.readByte_eq_some.2 ⟨hi, hcell⟩
  · cases h

theorem State.hostReset_pc_zero (s : State) : s.hostReset.pc = 0 := rfl

/-- A load leaves pc where the host's reset does. -/
theorem State.pc_of_load {image : List Byte} {s : State} (h : State.load image = .next s) : s.pc = 0 := by
  rw [← State.hostReset_of_load h, State.hostReset_pc_zero]

/-- Settles O54: pc is 0 after each of the three, and the byte fetched there is the image's first. -/
theorem entryPointIsZero : Obligations.EntryPointIsZero := by
  refine ⟨rfl, State.hostReset_pc_zero, fun b rest s k h => ?_⟩
  have hpc : s.pc = 0 := State.pc_of_load h
  have hbyte : s.mem.readByte s.pc.toNat = some b := by
    rw [hpc]
    exact State.readByte_of_load h (Nat.zero_lt_succ _)
  refine ⟨hpc, ?_⟩
  rw [fetchByte_of_readByte hbyte, hpc]
  rfl

end Sys2Proof.Machine
end

section
/-! SUPPORT. Encoding and decoding are each other's inverse (30_encoding.md sections 2 to 5): what `decode`
answers at an opcode's byte, by the opcode's layout, read in both directions. -/

namespace Sys2Proof

/-! ### Decoding, by layout -/

theorem decode_layout_n {op : Opcode} {i : Instr} (hl : op.layout = .n i) (rest : List Byte) :
    decode (op.byte :: rest) = .ok i rest := by
  rw [decode_byte_cons]
  simp only [decodeOperands, hl]

theorem decode_layout_r {op : Opcode} {mk : Byte → Instr} (hl : op.layout = .r mk) (r : Byte)
    (rest : List Byte) : decode (op.byte :: r :: rest) = .ok (mk r) rest := by
  rw [decode_byte_cons]
  simp only [decodeOperands, hl]

theorem decode_layout_rw {op : Opcode} {mk : Byte → Word → Instr} (hl : op.layout = .rw mk)
    (r lo hi : Byte) (rest : List Byte) :
    decode (op.byte :: r :: lo :: hi :: rest) = .ok (mk r (wordOfBytes lo hi)) rest := by
  rw [decode_byte_cons]
  simp only [decodeOperands, hl]

theorem decode_layout_w {op : Opcode} {mk : Word → Instr} (hl : op.layout = .w mk) (lo hi : Byte)
    (rest : List Byte) : decode (op.byte :: lo :: hi :: rest) = .ok (mk (wordOfBytes lo hi)) rest := by
  rw [decode_byte_cons]
  simp only [decodeOperands, hl]

/-- Settles O3: each row by its opcode's layout; the word of two bytes is the high one before the low one. -/
theorem everyTableRowDecodes : Obligations.EveryTableRowDecodes := by
  intro a b lo hi rest
  exact ⟨decode_layout_n (op := .nop) rfl rest, decode_layout_n (op := .hlt) rfl rest,
    decode_layout_rw (op := .moveLit) rfl a lo hi rest, decode_layout_rr (op := .moveReg) rfl a b rest,
    decode_layout_rw (op := .moveRegMem) rfl a lo hi rest,
    decode_layout_rw (op := .moveMemReg) rfl a lo hi rest,
    decode_layout_rr (op := .add) rfl a b rest, decode_layout_rr (op := .sub) rfl a b rest,
    decode_layout_rr (op := .mul) rfl a b rest, decode_layout_w (op := .pushLit) rfl lo hi rest,
    decode_layout_r (op := .pushReg) rfl a rest, decode_layout_r (op := .pop) rfl a rest,
    decode_layout_r (op := .print) rfl a rest, decode_layout_rr (op := .cmp) rfl a b rest,
    decode_layout_rr (op := .cmpNot) rfl a b rest, decode_layout_rr (op := .lt) rfl a b rest,
    decode_layout_rr (op := .gt) rfl a b rest, decode_layout_w (op := .jmp) rfl lo hi rest,
    decode_layout_w (op := .jmpZ) rfl lo hi rest, decode_layout_w (op := .jmpNZ) rfl lo hi rest⟩

/-! ### Decoding an encoding -/

/-- What an opcode's layout makes of operands decodes back from its encoding, whatever bytes follow. -/
theorem decode_encode_rw {op : Opcode} {mk : Byte → Word → Instr} (hl : op.layout = .rw mk) (r : Byte)
    (w : Word) (rest : List Byte) : decode (encode (mk r w) ++ rest) = .ok (mk r w) rest := by
  rw [(layout_rw hl r w).2]
  exact (decode_layout_rw hl r _ _ rest).trans (by rw [wordOfBytes_low_high])

theorem decode_encode_w {op : Opcode} {mk : Word → Instr} (hl : op.layout = .w mk) (w : Word)
    (rest : List Byte) : decode (encode (mk w) ++ rest) = .ok (mk w) rest := by
  rw [(layout_w hl w).2]
  exact (decode_layout_w hl _ _ rest).trans (by rw [wordOfBytes_low_high])

/-- Settles O1: the bytes of each format decode by its opcode's layout, and a word is made again of its two
bytes. -/
theorem decodeOfEncode : Obligations.DecodeOfEncode := by
  intro i rest
  cases i with
  | nop => exact decode_layout_n (op := .nop) rfl rest
  | hlt => exact decode_layout_n (op := .hlt) rfl rest
  | moveLit r w => exact decode_encode_rw (op := .moveLit) rfl r w rest
  | moveReg d q => exact decode_layout_rr (op := .moveReg) rfl d q rest
  | moveRegMem r a => exact decode_encode_rw (op := .moveRegMem) rfl r a rest
  | moveMemReg r a => exact decode_encode_rw (op := .moveMemReg) rfl r a rest
  | add r q => exact decode_layout_rr (op := .add) rfl r q rest
  | sub r q => exact decode_layout_rr (op := .sub) rfl r q rest
  | mul r q => exact decode_layout_rr (op := .mul) rfl r q rest
  | pushLit w => exact decode_encode_w (op := .pushLit) rfl w rest
  | pushReg r => exact decode_layout_r (op := .pushReg) rfl r rest
  | pop r => exact decode_layout_r (op := .pop) rfl r rest
  | print r => exact decode_layout_r (op := .print) rfl r rest
  | cmp r q => exact decode_layout_rr (op := .cmp) rfl r q rest
  | cmpNot r q => exact decode_layout_rr (op := .cmpNot) rfl r q rest
  | lt r q => exact decode_layout_rr (op := .lt) rfl r q rest
  | gt r q => exact decode_layout_rr (op := .gt) rfl r q rest
  | jmp a => exact decode_encode_w (op := .jmp) rfl a rest
  | jmpZ a => exact decode_encode_w (op := .jmpZ) rfl a rest
  | jmpNZ a => exact decode_encode_w (op := .jmpNZ) rfl a rest

/-! ### Encoding what was decoded -/

/-- Operand bytes that decode are, after the opcode's byte, the encoding of what they decode to. -/
theorem encode_of_decodeOperands {op : Opcode} {bytes rest : List Byte} {i : Instr}
    (h : decodeOperands op bytes = .ok i rest) : op.byte :: bytes = encode i ++ rest := by
  cases hl : op.layout with
  | n j =>
    simp only [decodeOperands, hl, DecodeResult.ok.injEq] at h
    obtain ⟨rfl, rfl⟩ := h
    rw [(layout_n hl).2]; rfl
  | r mk =>
    match bytes with
    | r :: _ =>
      simp only [decodeOperands, hl, DecodeResult.ok.injEq] at h
      obtain ⟨rfl, rfl⟩ := h
      rw [(layout_r hl r).2]; rfl
    | [] => simp [decodeOperands, hl] at h
  | rr mk =>
    match bytes with
    | r :: q :: _ =>
      simp only [decodeOperands, hl, DecodeResult.ok.injEq] at h
      obtain ⟨rfl, rfl⟩ := h
      rw [(layout_rr hl r q).2]; rfl
    | [] | [_] => simp [decodeOperands, hl] at h
  | rw mk =>
    match bytes with
    | r :: lo :: hi :: _ =>
      simp only [decodeOperands, hl, DecodeResult.ok.injEq] at h
      obtain ⟨rfl, rfl⟩ := h
      rw [(layout_rw hl r _).2, lowByte_wordOfBytes, highByte_wordOfBytes]; rfl
    | [] | [_] | [_, _] => simp [decodeOperands, hl] at h
  | w mk =>
    match bytes with
    | lo :: hi :: _ =>
      simp only [decodeOperands, hl, DecodeResult.ok.injEq] at h
      obtain ⟨rfl, rfl⟩ := h
      rw [(layout_w hl _).2, lowByte_wordOfBytes, highByte_wordOfBytes]; rfl
    | [] | [_] => simp [decodeOperands, hl] at h

/-- Settles O2: the first byte is its opcode's, and the operand bytes are read back by the layout. -/
theorem encodeOfDecode : Obligations.EncodeOfDecode := by
  intro bytes i rest h
  cases bytes with
  | nil => simp [decode] at h
  | cons b bytes =>
    cases ho : decodeOpcode b with
    | none => simp [decode, ho] at h
    | some op =>
      obtain rfl := byte_of_decodeOpcode ho
      exact encode_of_decodeOperands ((decode_byte_cons op bytes).symm.trans h)

end Sys2Proof
end

section
/-! SUPPORT. What each effect of an instruction leaves unchanged, field by field, and what it raises: the rows of
40_cycle.md R118 and 60_exceptions.md R206, read off the inversion lemma of `exec`. -/

namespace Sys2Proof

/-- An instruction that checks a register may raise InvalidRegister (60_exceptions.md R206). -/
theorem Instr.invalidRegister_mem_mayRaise {i : Instr} {r : Byte} (h : r ∈ i.regOperands) :
    Machine.FaultKind.invalidRegister ∈ i.opcode.mayRaise := by
  cases i with
  | nop | hlt | pushLit | jmp | jmpZ | jmpNZ => simp [Instr.regOperands] at h
  | moveLit | moveReg | moveRegMem | moveMemReg | add | sub | mul | pushReg | pop | print | cmp | cmpNot
  | lt | gt => simp [Instr.opcode, Opcode.mayRaise]

/-- A push writes no register (10_state.md R22). -/
theorem Instr.opcode_of_writesReg {i : Instr} {r : Byte} (h : i.writesReg = some r) :
    i.opcode ∉ [.pushLit, .pushReg, .hlt, .print, .moveMemReg] := by
  cases i with
  | moveLit | moveReg | moveRegMem | add | sub | mul | pop => simp [Instr.opcode]
  | nop | hlt | moveMemReg | pushLit | pushReg | print | cmp | cmpNot | lt | gt | jmp | jmpZ
  | jmpNZ => simp [Instr.writesReg] at h

end Sys2Proof

namespace Sys2Proof.Machine

/-! ### Raising and completing -/

/-- The record an instruction raises from `s` once its operands are fetched, and why (60_exceptions.md R202,
R206). -/
def CanRaise (i : Instr) (s : State) : FaultKind → Pc → Prop
  | .noFault, _ => False
  | .decodeError, _ => False
  | .outOfBounds, info => ∃ r a, (i = .moveRegMem r a ∨ i = .moveMemReg r a) ∧
      s.mem.size.val ≤ a.toNat + 1 ∧ info = a.setWidth 17
  | .stackOverflow, info => i.opcode ∈ [.pushLit, .pushReg] ∧ s.sp.val = 256 ∧ info = 256
  | .stackUnderflow, info => i.opcode = .pop ∧ s.sp.val = 0 ∧ info = 0
  | .invalidRegister, info => ∃ r ∈ i.regOperands, ¬ ValidReg r ∧ info = r.setWidth 17

/-- What an instruction raises is of a kind the table gives its opcode (60_exceptions.md R206). -/
theorem CanRaise.mem_mayRaise {i : Instr} {s : State} {kind : FaultKind} {info : Pc}
    (h : CanRaise i s kind info) : kind ∈ i.opcode.mayRaise := by
  cases kind with
  | noFault | decodeError => exact h.elim
  | outOfBounds =>
    obtain ⟨r, a, rfl | rfl, -, -⟩ := h <;> simp [Instr.opcode, Opcode.mayRaise]
  | stackOverflow =>
    obtain ⟨hi, -, -⟩ := h
    simp only [List.mem_cons, List.not_mem_nil, or_false] at hi
    rcases hi with hi | hi <;> simp [hi, Opcode.mayRaise]
  | stackUnderflow => obtain ⟨hi, -, -⟩ := h; simp [hi, Opcode.mayRaise]
  | invalidRegister => obtain ⟨r, hr, -, -⟩ := h; exact Instr.invalidRegister_mem_mayRaise hr

/-- An instruction raises, all else unchanged, or completes: the record stays, and HLT alone moves status. -/
theorem Effect.raised_or_completed {i : Instr} {s t : State} (h : Effect i s t) :
    (∃ kind info, CanRaise i s kind info ∧ t = s.raise kind info) ∨
      (t.faultKind = s.faultKind ∧ t.faultInfo = s.faultInfo ∧
        t.status = if i.opcode = .hlt then .halted else s.status) := by
  cases h with
  | badRegister r hr hv => exact .inl ⟨.invalidRegister, _, ⟨r, hr, hv, rfl⟩, rfl⟩
  | dataOut r a hi ha => exact .inl ⟨.outOfBounds, _, ⟨r, a, hi, ha, rfl⟩, rfl⟩
  | stackFull hi h => exact .inl ⟨.stackOverflow, _, ⟨hi, h, rfl⟩, rfl⟩
  | stackEmpty hi h => exact .inl ⟨.stackUnderflow, _, ⟨hi, h, rfl⟩, rfl⟩
  | halt hi => subst hi; exact .inr ⟨rfl, rfl, rfl⟩
  | nothing hi | popped _ _ hi _ _ | stored _ _ _ _ hi _ _ | printed _ _ hi _ =>
    subst hi; exact .inr ⟨rfl, rfl, rfl⟩
  | writeReg r d v hw _ _ _ =>
    have := Instr.opcode_of_writesReg hw
    exact .inr ⟨rfl, rfl, (if_neg (by simp_all)).symm⟩
  | pushed v hi _ | compared b hi =>
    exact .inr ⟨rfl, rfl, (if_neg fun hh => by simp [hh] at hi).symm⟩
  | jumped a hi => rcases hi with rfl | ⟨rfl, -⟩ | ⟨rfl, -⟩ <;> exact .inr ⟨rfl, rfl, rfl⟩
  | notJumped a hi => rcases hi with ⟨rfl, -⟩ | ⟨rfl, -⟩ <;> exact .inr ⟨rfl, rfl, rfl⟩

/-- An instruction that does not end in FAULTED completes. -/
theorem Effect.completed {i : Instr} {s t : State} (h : Effect i s t) (ht : t.status ≠ .faulted) :
    t.faultKind = s.faultKind ∧ t.faultInfo = s.faultInfo ∧
      t.status = if i.opcode = .hlt then .halted else s.status := by
  rcases h.raised_or_completed with ⟨_, _, -, rfl⟩ | hc
  · exact absurd rfl ht
  · exact hc

/-- An instruction that takes RUNNING to FAULTED raises. -/
theorem Effect.raised {i : Instr} {s t : State} (h : Effect i s t) (hs : s.status = .running)
    (ht : t.status = .faulted) : ∃ kind info, CanRaise i s kind info ∧ t = s.raise kind info := by
  rcases h.raised_or_completed with hr | ⟨-, -, hc⟩
  · exact hr
  · rw [ht, hs] at hc
    split at hc <;> cases hc

/-- From RUNNING an instruction enters HALTED exactly if it is HLT (R131). -/
theorem Effect.status_halted_iff {i : Instr} {s t : State} (h : Effect i s t) (hs : s.status = .running) :
    t.status = .halted ↔ i.opcode = .hlt := by
  rcases h.raised_or_completed with ⟨kind, info, hr, rfl⟩ | ⟨-, -, hc⟩
  · refine iff_of_false (by simp) fun hi => ?_
    have := hr.mem_mayRaise
    simp [hi, Opcode.mayRaise] at this
  · rw [hc, hs]
    split <;> simp [*]

/-! ### Registers and memory -/

/-- An instruction changes no register but the one it writes (10_state.md R22). -/
theorem Effect.readReg_eq {i : Instr} {s t : State} (h : Effect i s t) (k : Fin 9)
    (hk : i.writesReg.map BitVec.toNat ≠ some k.val) : t.readReg k = s.readReg k := by
  have other {r : Byte} {d : Fin 9} (hw : i.writesReg = some r) (hd : r.toNat = d.val) : k ≠ d := by
    rintro rfl
    exact hk (by rw [hw, Option.map_some, hd])
  cases h with
  | writeReg r d v hw hd _ _ => simp [other hw hd]
  | popped r d hi hd _ =>
    subst hi
    exact (State.readReg_writeReg _ d k _).trans (if_neg (other rfl hd))
  | badRegister | dataOut | stackFull | stackEmpty | nothing | halt | stored | pushed | printed | compared
  | jumped | notJumped => rfl

/-- MoveMemReg alone writes memory. -/
theorem Effect.mem_eq {i : Instr} {s t : State} (h : Effect i s t) (hi : i.opcode ≠ .moveMemReg) :
    t.mem = s.mem := by
  cases h with
  | stored r a x m hi' _ _ => subst hi'; exact absurd rfl hi
  | badRegister | dataOut | stackFull | stackEmpty | nothing | halt | writeReg | popped | pushed | printed
  | compared | jumped | notJumped => rfl

/-- Memory after an instruction is as before, or with one word written, at the address MoveMemReg names. -/
theorem Effect.mem_cases {i : Instr} {s t : State} (h : Effect i s t) :
    t.mem = s.mem ∨ ∃ r a v, i = .moveMemReg r a ∧ s.mem.writeWord a.toNat v = some t.mem := by
  cases h with
  | stored r a x m hi _ hm => exact .inr ⟨r, a, _, hi, hm⟩
  | badRegister | dataOut | stackFull | stackEmpty | nothing | halt | writeReg | popped | pushed | printed
  | compared | jumped | notJumped => exact .inl rfl

/-! ### The value stack and the events -/

/-- The value stack after an instruction: as before, or one push, or one pop. -/
theorem Effect.stack_cases {i : Instr} {s t : State} (h : Effect i s t) :
    (SameStack s t ∧ (i.opcode ∈ [.pushLit, .pushReg, .pop] → t.status = .faulted)) ∨
    (i.opcode ∈ [.pushLit, .pushReg] ∧ t.sp.val = s.sp.val + 1 ∧
      ∀ k : Fin 256, k.val ≠ s.sp.val → t.stack[k] = s.stack[k]) ∨
    (i.opcode = .pop ∧ t.sp.val + 1 = s.sp.val ∧ t.stack = s.stack) := by
  cases h with
  | badRegister | dataOut | stackFull | stackEmpty => exact .inl ⟨⟨rfl, rfl⟩, fun _ => rfl⟩
  | pushed v hi _ =>
    refine .inr (.inl ⟨hi, rfl, fun k hk => ?_⟩)
    simp [Ne.symm hk]
  | popped r d hi _ h =>
    subst hi
    exact .inr (.inr ⟨rfl, Nat.sub_add_cancel h, rfl⟩)
  | nothing hi | halt hi | stored _ _ _ _ hi _ _ | printed _ _ hi _ =>
    subst hi; exact .inl ⟨⟨rfl, rfl⟩, by simp [Instr.opcode]⟩
  | writeReg r d v hw _ hp _ =>
    have := Instr.opcode_of_writesReg hw
    exact .inl ⟨⟨rfl, rfl⟩, by simp_all⟩
  | compared b hi =>
    refine .inl ⟨⟨rfl, rfl⟩, fun hp => ?_⟩
    simp only [List.mem_cons, List.not_mem_nil, or_false] at hp
    rcases hp with hp | hp | hp <;> simp [hp] at hi
  | jumped a hi => rcases hi with rfl | ⟨rfl, -⟩ | ⟨rfl, -⟩ <;> exact .inl ⟨⟨rfl, rfl⟩, by simp [Instr.opcode]⟩
  | notJumped a hi => rcases hi with ⟨rfl, -⟩ | ⟨rfl, -⟩ <;> exact .inl ⟨⟨rfl, rfl⟩, by simp [Instr.opcode]⟩

/-- The events after an instruction: as before, or one more, which names a register (45_print.md R170). -/
theorem Effect.out_cases {i : Instr} {s t : State} (h : Effect i s t) :
    (t.out = s.out ∧ (i.opcode = .print → t.status = .faulted)) ∨
    (i.opcode = .print ∧ ∃ e : PrintEvent, e.index.toNat ≤ 8 ∧ t.out = s.out ++ [e]) := by
  cases h with
  | badRegister | dataOut | stackFull | stackEmpty => exact .inl ⟨rfl, fun _ => rfl⟩
  | printed r x hi hx =>
    subst hi
    exact .inr ⟨rfl, _, by simp only; have := x.isLt; omega, rfl⟩
  | nothing hi | halt hi | stored _ _ _ _ hi _ _ | popped _ _ hi _ _ =>
    subst hi; exact .inl ⟨rfl, by simp [Instr.opcode]⟩
  | writeReg r d v hw _ hp _ =>
    have := Instr.opcode_of_writesReg hw
    exact .inl ⟨rfl, by simp_all⟩
  | pushed v hi _ | compared b hi => exact .inl ⟨rfl, fun hp => by simp [hp] at hi⟩
  | jumped a hi => rcases hi with rfl | ⟨rfl, -⟩ | ⟨rfl, -⟩ <;> exact .inl ⟨rfl, by simp [Instr.opcode]⟩
  | notJumped a hi => rcases hi with ⟨rfl, -⟩ | ⟨rfl, -⟩ <;> exact .inl ⟨rfl, by simp [Instr.opcode]⟩

end Sys2Proof.Machine
end

section
/-! SUPPORT. The step by what the bytes at pc decode to (40_cycle.md sections 1 to 3): the instruction it runs,
the operand it may miss, and the instruction placed where it fetches. -/

namespace Sys2Proof

/-- An instruction has 1 to 4 bytes (30_encoding.md R88). -/
theorem Format.length_bounds (f : Format) : 0 < f.length ∧ f.length ≤ 4 := by
  cases f <;> decide

end Sys2Proof

namespace Sys2Proof.Machine

/-! ### What the bytes at pc decode to -/

/-- Where the bytes at pc decode, the instruction lies in memory, its opcode's byte first, and the step runs it
with pc past it. -/
theorem step_decoded {s : State} {i : Instr} {rest : List Byte} (hs : s.status = .running)
    (hd : decode s.fetchWindow = .ok i rest) :
    s.mem.readByte s.pc.toNat = some i.opcode.byte ∧ s.pc.toNat + i.length ≤ s.mem.size.val ∧
      step s = exec i { s with pc := s.pc + BitVec.ofNat 17 i.length } := by
  rw [step_running hs]
  rcases fetchInstr_cases s exec with ⟨-, h, -⟩ | ⟨_, -, -, h, -⟩ | ⟨_, _, -, h, -⟩ | ⟨j, _, hb, h, hlen, e⟩
  · cases h.symm.trans hd
  · cases h.symm.trans hd
  · cases h.symm.trans hd
  · cases h.symm.trans hd
    exact ⟨hb, hlen, e⟩

/-- Settles O6: the one case of the fetch in which the bytes at pc decode. -/
theorem stepRunsDecodedInstruction : Obligations.StepRunsDecodedInstruction := by
  intro s i rest hs hd
  obtain ⟨-, -, e⟩ := step_decoded hs hd
  exact e

/-- Settles O10: no arm of `exec` faults or refuses. -/
theorem everyInstructionAnswersNext : Obligations.EveryInstructionAnswersNext := exec_answersNext

/-! ### Operands cut off by the end of memory -/

/-- Where an instruction's operands reach past the end of memory, OutOfBounds is raised where the first that
does not fit starts (R113). -/
theorem stepFaults_operandMissing {s : State} {op : Opcode} (hs : s.status = .running)
    (hb : s.mem.readByte s.pc.toNat = some op.byte)
    (hsize : s.mem.size.val < s.pc.toNat + op.format.length) :
    ∃ n, CutAt op.format (s.mem.size.val - s.pc.toNat) n ∧
      StepFaults s .outOfBounds (s.pc + BitVec.ofNat 17 n) := by
  rcases fetchOperands_cases op (Memory.readByte_eq_some.1 hb).1 exec with
    ⟨n, -, hcut, e⟩ | ⟨i, _, rfl, -, hlen, -⟩
  · exact ⟨n, hcut, .of_raise ((step_opcode hs hb).trans e)⟩
  · exact absurd hsize (Nat.not_lt.2 hlen)

/-- The same, where the end of memory leaves one place only for the operand that does not fit. -/
theorem stepFaults_operandMissing_at {s : State} {op : Opcode} {f : Format} (n : Nat) (hf : op.format = f)
    (hs : s.status = .running) (hb : s.mem.readByte s.pc.toNat = some op.byte)
    (hsize : s.mem.size.val < s.pc.toNat + f.length)
    (hn : ∀ m, CutAt f (s.mem.size.val - s.pc.toNat) m → m = n) :
    StepFaults s .outOfBounds (s.pc + BitVec.ofNat 17 n) := by
  subst hf
  obtain ⟨m, hcut, hfault⟩ := stepFaults_operandMissing hs hb hsize
  exact hn m hcut ▸ hfault

theorem cutAt_r_iff {room n : Nat} : CutAt .r room n ↔ room = 1 ∧ n = 1 := by
  simp [CutAt]

theorem cutAt_rr_iff {room n : Nat} : CutAt .rr room n ↔ room = 1 ∧ n = 1 ∨ room = 2 ∧ n = 2 := by
  simp [CutAt]

theorem cutAt_w_iff {room n : Nat} : CutAt .w room n ↔ (room = 1 ∨ room = 2) ∧ n = 1 := by
  simp [CutAt]

/-- Settles O8: the opcode byte's fetch fails, or an operand's, each format's operands being cut off where
`CutAt` says. -/
theorem fetchPastTheEndRaisesOutOfBounds : Obligations.FetchPastTheEndRaisesOutOfBounds := by
  intro s hs
  refine ⟨stepFaults_opcodeMissing hs, fun op hb => ?_⟩
  have hpc : s.pc.toNat < s.mem.size.val := (Memory.readByte_eq_some.1 hb).1
  refine ⟨fun hf h => ?_, fun hf h => ?_, fun hf h => ?_, fun hf h => ?_, fun hf h1 h3 => ?_,
    fun hf h => ?_⟩
  · exact stepFaults_operandMissing_at 1 hf hs hb (by rw [Format.length]; omega)
      fun m hm => by rw [cutAt_r_iff] at hm; omega
  · exact stepFaults_operandMissing_at 1 hf hs hb (by rw [Format.length]; omega)
      fun m hm => by rw [cutAt_rr_iff] at hm; omega
  · exact stepFaults_operandMissing_at 2 hf hs hb (by rw [Format.length]; omega)
      fun m hm => by rw [cutAt_rr_iff] at hm; omega
  · exact stepFaults_operandMissing_at 1 hf hs hb (by rw [Format.length]; omega)
      fun m hm => by rw [cutAt_rw_iff] at hm; omega
  · exact stepFaults_operandMissing_at 2 hf hs hb (by rw [Format.length]; omega)
      fun m hm => by rw [cutAt_rw_iff] at hm; omega
  · exact stepFaults_operandMissing_at 1 hf hs hb (by rw [Format.length]; omega)
      fun m hm => by rw [cutAt_w_iff] at hm; omega

/-! ### pc after a step that does not raise -/

/-- Settles O11: the instruction is in memory, so that pc does not wrap; a jump writes pc, and no other
instruction does. -/
theorem pcAfterCompletedStep : Obligations.PcAfterCompletedStep := by
  intro s t i rest hs hd ht _
  obtain ⟨-, hlen, e⟩ := step_decoded hs hd
  rw [e] at ht
  have hpc : (s.pc + BitVec.ofNat 17 i.length).toNat = s.pc.toNat + i.length :=
    toNat_pc_add _ i.opcode.format.length_bounds.2
      ((Nat.lt_add_of_pos_right i.opcode.format.length_bounds.1).trans_le hlen)
  refine ⟨hlen, fun a hi => ?_, fun a hi => ?_, fun a hi => ?_, fun hi => ?_⟩
  · subst hi
    cases (exec_jmp a _).symm.trans ht
    exact State.toNat_jumpTo_pc _ a
  · subst hi
    obtain ⟨u, hu, hto, -⟩ := jumpIf_completes s.zf a { s with pc := s.pc + BitVec.ofNat 17 3 }
    cases hu.symm.trans ht
    rw [hto]
    exact congrArg (if s.zf then a.toNat else ·) hpc
  · subst hi
    obtain ⟨u, hu, hto, -⟩ := jumpIf_completes (!s.zf) a { s with pc := s.pc + BitVec.ofNat 17 3 }
    cases hu.symm.trans ht
    rw [hto]
    cases s.zf
    · rfl
    · exact hpc
  · rw [(exec_effect ht).pc_eq hi]
    exact hpc

/-! ### How status moves -/

theorem Opcode.byte_inj {op op' : Opcode} (h : op.byte = op'.byte) : op = op' := by
  simpa using congrArg decodeOpcode h

/-- Settles O13: an ended state stays; from RUNNING a fetch that fails enters FAULTED, and an instruction HALTED
if its opcode's byte is HLT's. -/
theorem statusTransitions : Obligations.StatusTransitions := by
  refine ⟨fun s t ht => ⟨fun hs => ?_, fun hs => ?_⟩, rfl, rfl, rfl⟩
  · cases (step_ended hs).symm.trans ht; rfl
  · rw [step_running hs] at ht
    rcases fetchInstr_cases s exec with ⟨hout, -, e⟩ | ⟨b, hb, hn, -, e⟩ | ⟨op, n, hb, -, hcut, e⟩ |
      ⟨i, _, hb, -, -, e⟩
    · cases e.symm.trans ht
      refine iff_of_false (by simp) fun h => ?_
      exact Nat.not_lt.2 hout (Memory.readByte_eq_some.1 h).1
    · cases e.symm.trans ht
      refine iff_of_false (by simp) fun h => ?_
      cases hb.symm.trans h
      cases hn
    · cases e.symm.trans ht
      refine iff_of_false (by simp) fun h => ?_
      cases Opcode.byte_inj (op' := .hlt) (Option.some.inj (hb.symm.trans h))
      simp [CutAt, Opcode.format, Opcode.layout, Layout.format] at hcut
    · rw [(exec_effect (e.symm.trans ht)).status_halted_iff hs, hb, Option.some.injEq]
      exact ⟨fun h => h ▸ rfl, Opcode.byte_inj (op' := .hlt)⟩

end Sys2Proof.Machine
end

section
/-! SUPPORT. What a step from RUNNING has done when it completes, row by row (40_cycle.md R118), and when it
raises (60_exceptions.md R202 to R206). -/

namespace Sys2Proof.Machine

/-! ### A step that completes -/

/-- Memory after MoveMemReg, from a canonical one, is as before but for the two bytes it names. -/
theorem Effect.sameMemBut {r : Byte} {a : Word} {s t : State} (h : Effect (.moveMemReg r a) s t)
    (hw : s.mem.wf) : SameMemBut a.toNat 2 s t := by
  intro b hb
  rcases h.mem_cases with hm | ⟨_, _, v, hi, hm⟩
  · rw [hm]
  · cases hi
    rw [Memory.readByte_writeWord hw hm, if_neg (by omega), if_neg (by omega)]

/-- Settles O12: the effect of the instruction the step runs, field by field. -/
theorem stepChangesOnlyItsRow : Obligations.StepChangesOnlyItsRow := by
  intro s t i rest hw hs hd ht hnf
  obtain ⟨-, -, e⟩ := step_decoded hs hd
  have eff : Effect i { s with pc := s.pc + BitVec.ofNat 17 i.length } t := exec_effect (e.symm.trans ht)
  obtain ⟨hkind, hinfo, hstatus⟩ := eff.completed hnf
  refine ⟨eff.readReg_eq, fun hi a => by rw [eff.mem_eq hi], fun r a hi => ?_, fun hi => ?_, fun hi => ?_,
    fun hi => ?_, eff.zf_eq, fun hi => ?_, fun hi => ?_, fun hi => ?_, fun hi => ?_, hkind, hinfo⟩
  · subst hi
    exact eff.sameMemBut hw
  · rcases eff.stack_cases with ⟨hst, -⟩ | ⟨hi', -⟩ | ⟨hi', -⟩
    · exact hst
    · exact absurd (List.mem_append_left [Opcode.pop] hi') hi
    · exact absurd (by simp [hi']) hi
  · rcases eff.stack_cases with ⟨-, hf⟩ | ⟨-, hpush⟩ | ⟨hi', -⟩
    · exact absurd (hf (List.mem_append_left [Opcode.pop] hi)) hnf
    · exact hpush
    · simp [hi'] at hi
  · rcases eff.stack_cases with ⟨-, hf⟩ | ⟨hi', -⟩ | ⟨-, hpop⟩
    · exact absurd (hf (by simp [hi])) hnf
    · simp [hi] at hi'
    · exact hpop
  · rcases eff.out_cases with ⟨hout, -⟩ | ⟨hi', -⟩
    · exact hout
    · exact absurd hi' hi
  · rcases eff.out_cases with ⟨-, hf⟩ | ⟨-, ev, -, hout⟩
    · exact absurd (hf hi) hnf
    · exact ⟨ev, hout⟩
  · rw [hstatus, if_neg hi]
    exact hs
  · rw [hstatus, if_pos hi]

/-! ### A step that raises -/

theorem State.decode_fetchWindow_out {s : State} (h : s.mem.size.val ≤ s.pc.toNat) :
    decode s.fetchWindow = .missingOpcode := by
  simp [State.fetchWindow_eq, h, decode]

theorem State.decode_fetchWindow_illegal {s : State} {b : Byte} (hb : s.mem.readByte s.pc.toNat = some b)
    (hn : decodeOpcode b = none) : decode s.fetchWindow = .illegalOpcode b := by
  rw [State.fetchWindow, longestInstr, Memory.bytesFrom_succ hb]
  exact decode_cons_eq_illegalOpcode_iff.2 ⟨rfl, hn⟩

/-- The operand that does not fit starts inside the instruction, after the opcode's byte, and in memory or at
its end. -/
theorem CutAt.bounds {f : Format} {room n : Nat} (h : CutAt f room n) :
    0 < n ∧ n < f.length ∧ n ≤ room := by
  rcases h with ⟨rfl, h⟩ | ⟨rfl, h⟩ | ⟨rfl, h⟩ | ⟨rfl, h⟩ | ⟨rfl, h⟩ | ⟨rfl, h⟩ <;>
    simp only [Format.length] <;> omega

/-- The table of pc at a fault (60_exceptions.md R204), its rows named by what the bytes at pc decode to. -/
theorem step_faulted {s t : State} (hs : s.status = .running) (ht : step s = .next t)
    (hf : t.status = .faulted) :
    t = { s with pc := t.pc, status := .faulted, faultKind := t.faultKind, faultInfo := t.faultInfo } ∧
    (decode s.fetchWindow = .missingOpcode → t.faultKind = .outOfBounds ∧ t.pc = s.pc) ∧
    (∀ b, decode s.fetchWindow = .illegalOpcode b → t.faultKind = .decodeError ∧ t.pc = s.pc + 1) ∧
    (∀ op, decode s.fetchWindow = .missingOperand op →
      t.faultKind = .outOfBounds ∧ t.pc = t.faultInfo ∧ s.pc.toNat < t.pc.toNat ∧
        t.pc.toNat < s.pc.toNat + op.format.length) ∧
    (∀ i rest, decode s.fetchWindow = .ok i rest →
      t.faultKind ∈ i.opcode.mayRaise ∧ t.pc = s.pc + BitVec.ofNat 17 i.length) := by
  rw [step_running hs] at ht
  rcases fetchInstr_cases s exec with ⟨-, hd, e⟩ | ⟨b, -, -, hd, e⟩ | ⟨op, n, hb, hd, hcut, e⟩ |
    ⟨i, _, -, hd, -, e⟩
  · cases e.symm.trans ht
    exact ⟨rfl, fun _ => ⟨rfl, rfl⟩, by simp [hd], by simp [hd], by simp [hd]⟩
  · cases e.symm.trans ht
    exact ⟨rfl, by simp [hd], fun _ _ => ⟨rfl, rfl⟩, by simp [hd], by simp [hd]⟩
  · cases e.symm.trans ht
    refine ⟨rfl, by simp [hd], by simp [hd], fun op' hd' => ⟨rfl, rfl, ?_⟩, by simp [hd]⟩
    cases hd.symm.trans hd'
    obtain ⟨hpos, hlt, -⟩ := hcut.bounds
    have hpc : (s.pc + BitVec.ofNat 17 n).toNat = s.pc.toNat + n :=
      toNat_pc_add n (hlt.le.trans op.format.length_bounds.2) (Memory.readByte_eq_some.1 hb).1
    simp only [State.raise_pc]
    omega
  · obtain ⟨kind, info, hr, rfl⟩ := (exec_effect (e.symm.trans ht)).raised hs hf
    refine ⟨rfl, by simp [hd], by simp [hd], by simp [hd], fun i' _ hd' => ?_⟩
    cases hd.symm.trans hd'
    exact ⟨hr.mem_mayRaise, rfl⟩

/-- Settles O16: the table of pc at a fault, what is fetched naming the row. -/
theorem faultsArePrecise : Obligations.FaultsArePrecise := by
  intro s t hs ht hf
  obtain ⟨hsame, hopcode, hillegal, hoperand, hexec⟩ := step_faulted hs ht hf
  exact ⟨hsame, fun h => hopcode (State.decode_fetchWindow_out h),
    fun b hb hn => hillegal b (State.decode_fetchWindow_illegal hb hn), hoperand, hexec⟩

/-! ### Register operands -/

/-- One register operand that is bad raises. -/
theorem withReg_firstBad {before after : List Byte} {q r : Byte} (h : [q] = before ++ r :: after)
    (hr : 8 < r.toNat) (s : State) (k : Fin 9 → Result) :
    withReg q s k = .next (s.raise .invalidRegister (r.setWidth 17)) := by
  have hq : q = r := by
    rcases List.cons_eq_append_iff.1 h with ⟨-, h⟩ | ⟨_, -, h⟩
    · exact (List.cons.inj h).1.symm
    · simp at h
  exact hq ▸ withReg_invalid (Nat.not_le.2 (hq ▸ hr)) s k

/-- Of two register operands the first that is bad raises (R205). -/
theorem withRegs_firstBad {before after : List Byte} {p q r : Byte} (h : [p, q] = before ++ r :: after)
    (hgood : ∀ x ∈ before, x.toNat ≤ 8) (hr : 8 < r.toNat) (s : State) (k : Fin 9 → Fin 9 → Result) :
    withRegs p q s k = .next (s.raise .invalidRegister (r.setWidth 17)) := by
  rcases List.cons_eq_append_iff.1 h with ⟨-, h'⟩ | ⟨before', rfl, h'⟩
  · obtain ⟨rfl, -⟩ := List.cons.inj h'
    exact withReg_invalid (Nat.not_le.2 hr) s _
  · rw [withRegs, withReg_valid (hgood p (by simp))]
    exact withReg_firstBad h' hr s _

/-- Settles O18: an instruction checks its register operands, in encoding order, before all else. -/
theorem invalidRegisterIsRaised : Obligations.InvalidRegisterIsRaised := by
  intro i s before after r h hgood hr
  cases i with
  | nop | hlt | pushLit | jmp | jmpZ | jmpNZ => simp [Instr.regOperands] at h
  | moveLit | moveRegMem | moveMemReg | pushReg | pop | print => exact withReg_firstBad h hr s _
  | moveReg | add | sub | mul | cmp | cmpNot | lt | gt => exact withRegs_firstBad h hgood hr s _

/-! ### Data accesses and the value stack -/

/-- Settles O19: the register is good, and the access is out of bounds; at 0xFFFF every one is, since MEM_SIZE
is at most 65536. -/
theorem dataOutOfBoundsIsRaised : Obligations.DataOutOfBoundsIsRaised := by
  intro s r a hr ha
  have hout : s.mem.size.val ≤ a.toNat + 1 := by
    rcases ha with ha | rfl
    · exact ha
    · exact Nat.le_of_lt_succ s.mem.size.isLt
  have hd : r.toNat = (⟨r.toNat, Nat.lt_succ_of_le hr⟩ : Fin 9).val := rfl
  exact ⟨(exec_moveRegMem_named hd a s).trans (loadWord_out hout _),
    (exec_moveMemReg_named hd a s).trans (storeWord_out hout _)⟩

theorem push_full {s : State} (h : s.sp.val = 256) (v : Word) :
    push v s = .next (s.raise .stackOverflow 256) := by
  rcases push_cases v s with ⟨hlt, -⟩ | ⟨-, e⟩
  · omega
  · exact e

theorem pop_empty {s : State} (h : s.sp.val = 0) (k : Word → State → Result) :
    pop s k = .next (s.raise .stackUnderflow 0) := by
  rcases pop_cases s k with ⟨hlt, -⟩ | ⟨-, e⟩
  · omega
  · exact e

/-- Settles O20: the register is good, and the stack is full, or empty. -/
theorem stackFaultsAreRaised : Obligations.StackFaultsAreRaised := by
  intro s r w hr
  exact ⟨fun h => ⟨push_full h w, (withReg_valid hr s _).trans (push_full h _)⟩,
    fun h => (withReg_valid hr s _).trans (pop_empty h _)⟩

/-! ### The table of faults -/

/-- An instruction of this layout, its register operands `r` and its word operand `w`. -/
def Layout.fill (l : Layout) (r : Byte) (w : Word) : Instr :=
  match l with
  | .n i => i
  | .r mk => mk r
  | .rr mk => mk r r
  | .rw mk => mk r w
  | .w mk => mk w

theorem opcode_fill (op : Opcode) (r : Byte) (w : Word) : (Layout.fill op.layout r w).opcode = op := by
  cases op <;> rfl

/-- An opcode that may raise InvalidRegister takes a register. -/
theorem regOperands_fill {op : Opcode} (h : .invalidRegister ∈ op.mayRaise) (r : Byte) (w : Word) :
    ∃ after, (Layout.fill op.layout r w).regOperands = r :: after := by
  cases op with
  | nop | hlt | pushLit | jmp | jmpZ | jmpNZ => simp [Opcode.mayRaise] at h
  | moveLit | moveReg | moveRegMem | moveMemReg | add | sub | mul | pushReg | pop | print | cmp | cmpNot
  | lt | gt => exact ⟨_, rfl⟩

/-- Each fault of the table is raised: by register 9, by address 0 in an empty memory, by a full stack, by an
empty one. -/
theorem exists_raised {op : Opcode} {kind : FaultKind} (h : kind ∈ op.mayRaise) :
    ∃ (i : Instr) (s : State) (info : Pc), i.opcode = op ∧ s.status = .running ∧
      exec i s = .next (s.raise kind info) := by
  cases kind with
  | noFault | decodeError => cases op <;> simp [Opcode.mayRaise] at h
  | outOfBounds =>
    have out := dataOutOfBoundsIsRaised State.reset 0 0 (by decide) (.inl (by decide))
    cases op with
    | moveRegMem => exact ⟨.moveRegMem 0 0, State.reset, _, rfl, rfl, out.1⟩
    | moveMemReg => exact ⟨.moveMemReg 0 0, State.reset, _, rfl, rfl, out.2⟩
    | nop | hlt | moveLit | moveReg | add | sub | mul | pushLit | pushReg | pop | print | cmp | cmpNot
    | lt | gt | jmp | jmpZ | jmpNZ => simp [Opcode.mayRaise] at h
  | stackOverflow =>
    have full := (stackFaultsAreRaised { State.reset with sp := 256 } 0 0 (by decide)).1 rfl
    cases op with
    | pushLit => exact ⟨.pushLit 0, _, _, rfl, rfl, full.1⟩
    | pushReg => exact ⟨.pushReg 0, _, _, rfl, rfl, full.2⟩
    | nop | hlt | moveLit | moveReg | moveRegMem | moveMemReg | add | sub | mul | pop | print | cmp
    | cmpNot | lt | gt | jmp | jmpZ | jmpNZ => simp [Opcode.mayRaise] at h
  | stackUnderflow =>
    have empty := (stackFaultsAreRaised State.reset 0 0 (by decide)).2 rfl
    cases op with
    | pop => exact ⟨.pop 0, _, _, rfl, rfl, empty⟩
    | nop | hlt | moveLit | moveReg | moveRegMem | moveMemReg | add | sub | mul | pushLit | pushReg
    | print | cmp | cmpNot | lt | gt | jmp | jmpZ | jmpNZ => simp [Opcode.mayRaise] at h
  | invalidRegister =>
    obtain ⟨after, hreg⟩ := regOperands_fill h 9 0
    exact ⟨Layout.fill op.layout 9 0, State.reset, _, opcode_fill op 9 0, rfl,
      invalidRegisterIsRaised _ _ [] after 9 hreg (by simp) (by decide)⟩

/-- Settles O17: what an instruction raises is what `CanRaise` says, and each fault of the table has an
instruction and a state that raise it. -/
theorem instructionsRaiseOnlyTheirFaults : Obligations.InstructionsRaiseOnlyTheirFaults := by
  refine ⟨fun i s t hs h hf => ?_, fun op kind hk => ?_⟩
  · obtain ⟨kind, info, hr, rfl⟩ := (exec_effect h).raised hs hf
    refine ⟨hr.mem_mayRaise, ?_, ?_, ?_, ?_⟩ <;> (intro hk; obtain rfl : kind = _ := hk)
    · obtain ⟨r, hmem, hv, rfl⟩ := hr
      exact ⟨r, hmem, Nat.lt_of_not_le hv, BitVec.toNat_setWidth_of_le (by decide)⟩
    · obtain ⟨r, a, hi, ha, rfl⟩ := hr
      exact ⟨r, a, hi, ha, BitVec.toNat_setWidth_of_le (by decide)⟩
    · obtain ⟨-, hsp, rfl⟩ := hr
      exact ⟨hsp, rfl⟩
    · obtain ⟨-, hsp, rfl⟩ := hr
      exact ⟨hsp, rfl⟩
  · obtain ⟨i, s, info, hi, hs, e⟩ := exists_raised hk
    exact ⟨i, s, _, hi, hs, e, rfl, rfl⟩

end Sys2Proof.Machine
end

section
/-! SUPPORT. The instruction placed where the next step fetches (log 14): the bytes placed are the bytes there. -/

namespace Sys2Proof.Machine

/-- Bytes stored one after another from `a` on, as `Memory.place` stores them once memory has grown. -/
def Memory.setBytes (m : Memory) (a : Nat) (bs : List Byte) : Memory :=
  (bs.zipIdx a).foldl (fun m p => m.setByte p.2 p.1) m

theorem Memory.setBytes_cons (m : Memory) (a : Nat) (b : Byte) (bs : List Byte) :
    m.setBytes a (b :: bs) = (m.setByte a b).setBytes (a + 1) bs := rfl

@[simp] theorem Memory.setBytes_size (m : Memory) (a : Nat) (bs : List Byte) :
    (m.setBytes a bs).size = m.size := by
  induction bs generalizing m a with
  | nil => rfl
  | cons b bs ih => rw [Memory.setBytes_cons, ih, Memory.setByte_size]

/-- Bytes stored in bounds from `a` on leave the addresses below as they were. -/
theorem Memory.byteAt_setBytes_below {m : Memory} (hm : m.wf) {a : Nat} (bs : List Byte)
    (h : a + bs.length ≤ m.size.val) {x : Nat} (hx : x < a) : (m.setBytes a bs).byteAt x = m.byteAt x := by
  induction bs generalizing m a with
  | nil => rfl
  | cons b bs ih =>
    rw [List.length_cons] at h
    rw [Memory.setBytes_cons, ih (Memory.setByte_wf hm (by omega) b) (by rw [Memory.setByte_size]; omega)
      (by omega), Memory.byteAt_setByte hm, if_neg (by omega)]

/-- Bytes stored in bounds from `a` on are the bytes from `a` on. -/
theorem Memory.bytesFrom_setBytes {m : Memory} (hm : m.wf) {a : Nat} (bs : List Byte)
    (h : a + bs.length ≤ m.size.val) : (m.setBytes a bs).bytesFrom a bs.length = bs := by
  induction bs generalizing m a with
  | nil => rfl
  | cons b bs ih =>
    rw [List.length_cons] at h
    have hwf : (m.setByte a b).wf := Memory.setByte_wf hm (by omega) b
    have hfits : a + 1 + bs.length ≤ (m.setByte a b).size.val := by rw [Memory.setByte_size]; omega
    have hfirst : (m.setBytes a (b :: bs)).readByte a = some b := by
      refine Memory.readByte_eq_some.2 ⟨by rw [Memory.setBytes_size]; omega, ?_⟩
      rw [Memory.setBytes_cons, Memory.byteAt_setBytes_below hwf bs hfits (Nat.lt_succ_self a),
        Memory.byteAt_setByte hm, if_pos rfl]
    rw [List.length_cons, Memory.bytesFrom_succ hfirst, Memory.setBytes_cons, ih hwf hfits]

/-- Bytes placed inside the address space are the bytes there. -/
theorem Memory.bytesFrom_place {m : Memory} (hm : m.wf) {a : Nat} {bs : List Byte}
    (h : a + bs.length ≤ 65536) : (m.place a bs).bytesFrom a bs.length = bs := by
  refine Memory.bytesFrom_setBytes (Memory.grow_wf hm ?_) bs ?_
  · have := m.size.isLt; simp only [le_min_iff]; omega
  · simp only [le_min_iff]; omega

theorem length_tableBytes (nbits w : Nat) : (tableBytes nbits w).length = longestInstr := by
  simp [tableBytes]

/-- The bytes the next step fetches are those of the word placed. -/
theorem State.fetchWindow_withFetchWord {s : State} (hm : s.mem.wf) (nbits w : Nat) :
    (s.withFetchWord nbits w).fetchWindow = tableBytes nbits w := by
  have hfits : (s.withFetchWord nbits w).pc.toNat + (tableBytes nbits w).length ≤ 65536 := by
    rw [length_tableBytes]
    simp only [State.withFetchWord]
    split
    · assumption
    · decide
  have hplaced := Memory.bytesFrom_place hm hfits
  rw [length_tableBytes] at hplaced
  exact hplaced

theorem decode_of_decodeTableWord {nbits w : Nat} {i : Instr} (h : decodeTableWord nbits w = some i) :
    ∃ rest, decode (tableBytes nbits w) = .ok i rest := by
  unfold decodeTableWord at h
  cases hd : decode (tableBytes nbits w) <;> simp_all

/-- Settles O7: the bytes at pc are the word's, which decode to the instruction. -/
theorem placedWordRunsNext : Obligations.PlacedWordRunsNext := by
  intro s nbits w i hm h
  obtain ⟨rest, hd⟩ := decode_of_decodeTableWord h
  rw [← State.fetchWindow_withFetchWord hm] at hd
  obtain ⟨-, -, e⟩ := step_decoded rfl hd
  exact e

end Sys2Proof.Machine
end

section
/-! SUPPORT. The invariant (10_state.md sections 2, 4, 5): every step keeps it, the raises writing records that fit,
and the host's transactions give it. -/

namespace Sys2Proof.Machine

/-! ### The parts of the invariant -/

/-- What an instruction raises is a fault, with a record that fits its kind (60_exceptions.md R202). -/
theorem CanRaise.recordFits {i : Instr} {s : State} {kind : FaultKind} {info : Pc}
    (h : CanRaise i s kind info) : kind ≠ .noFault ∧ RecordFits kind info.toNat := by
  cases kind with
  | noFault | decodeError => exact h.elim
  | outOfBounds =>
    obtain ⟨r, a, -, -, rfl⟩ := h
    refine ⟨by decide, ?_⟩
    rw [RecordFits, BitVec.toNat_setWidth_of_le (by decide)]
    have := a.isLt; omega
  | stackOverflow => obtain ⟨-, -, rfl⟩ := h; exact ⟨by decide, rfl⟩
  | stackUnderflow => obtain ⟨-, -, rfl⟩ := h; exact ⟨by decide, rfl⟩
  | invalidRegister =>
    obtain ⟨r, -, hv, rfl⟩ := h
    refine ⟨by decide, ?_⟩
    rw [RecordFits, BitVec.toNat_setWidth_of_le (by decide)]
    exact ⟨Nat.lt_of_not_le hv, Nat.le_of_lt_succ r.isLt⟩

/-- Raising a fault with a record that fits keeps the invariant. -/
theorem State.Inv.raise {s : State} (h : s.Inv) {kind : FaultKind} {info : Pc} (hk : kind ≠ .noFault)
    (hfit : RecordFits kind info.toNat) : (s.raise kind info).Inv := by
  obtain ⟨hmem, hpc, -, -, hout⟩ := h
  exact ⟨hmem, hpc, iff_of_true rfl hk, hfit, hout⟩

theorem State.Inv.pc_le {s : State} (h : s.Inv) : s.pc.toNat ≤ 65536 := h.2.1

theorem State.Inv.mem_wf {s : State} (h : s.Inv) : s.mem.wf := h.1

/-- Moving pc inside its bound keeps the invariant. -/
theorem State.Inv.setPc {s : State} (h : s.Inv) {pc : Pc} (hpc : pc.toNat ≤ 65536) :
    State.Inv { s with pc := pc } := by
  obtain ⟨hmem, -, hrecord, hfit, hout⟩ := h
  exact ⟨hmem, hpc, hrecord, hfit, hout⟩

/-- pc after an instruction is as before, or a 16-bit target (47_jump.md R193). -/
theorem Effect.pc_cases {i : Instr} {s t : State} (h : Effect i s t) :
    t.pc = s.pc ∨ ∃ a : Word, t.pc = a.setWidth 17 := by
  cases h with
  | jumped a _ => exact .inr ⟨a, rfl⟩
  | badRegister | dataOut | stackFull | stackEmpty | nothing | halt | writeReg | popped | stored | pushed
  | printed | compared | notJumped => exact .inl rfl

/-- Every instruction keeps the invariant. -/
theorem Effect.inv {i : Instr} {s t : State} (h : Effect i s t) (hs : s.Inv) (hrun : s.status = .running) :
    t.Inv := by
  rcases h.raised_or_completed with ⟨kind, info, hr, rfl⟩ | ⟨hkind, hinfo, hstatus⟩
  · exact hs.raise hr.recordFits.1 hr.recordFits.2
  · obtain ⟨hmem, hpc, hrecord, hfit, hout⟩ := hs
    have hnf : s.faultKind = .noFault := by
      by_contra hk
      cases hrun.symm.trans (hrecord.2 hk)
    refine ⟨?_, ?_, ?_, ?_, ?_⟩
    · rcases h.mem_cases with e | ⟨_, _, _, -, e⟩
      · exact e ▸ hmem
      · exact Memory.writeWord_wf hmem e
    · rcases h.pc_cases with e | ⟨a, e⟩
      · exact e ▸ hpc
      · rw [e, BitVec.toNat_setWidth_of_le (by decide)]
        exact a.isLt.le
    · rw [hkind, hstatus, hrun, hnf]
      split <;> simp
    · rw [hkind, hinfo]
      exact hfit
    · rcases h.out_cases with ⟨e, -⟩ | ⟨-, ev, hev, e⟩
      · exact e ▸ hout
      · rw [e]
        intro ev' hmem'
        rcases List.mem_append.1 hmem' with hold | hnew
        · exact hout ev' hold
        · exact List.mem_singleton.1 hnew ▸ hev

/-- Moving pc past bytes that lie in memory keeps the invariant. -/
theorem State.Inv.advance {s : State} (h : s.Inv) {n : Nat} (hn : n ≤ 4)
    (hlt : s.pc.toNat < s.mem.size.val) (hle : s.pc.toNat + n ≤ s.mem.size.val) :
    State.Inv { s with pc := s.pc + BitVec.ofNat 17 n } := by
  refine h.setPc ?_
  rw [toNat_pc_add n hn hlt]
  have := s.mem.size.isLt
  omega

/-- The record of an illegal opcode byte fits (60_exceptions.md R202). -/
theorem recordFits_decodeError {b : Byte} (h : decodeOpcode b = none) :
    RecordFits .decodeError (b.setWidth 17).toNat := by
  rw [RecordFits, BitVec.toNat_setWidth_of_le (by decide), BitVec.ofNat_toNat, BitVec.setWidth_eq]
  exact ⟨Nat.le_of_lt_succ b.isLt, h⟩

/-- Settles O23: a fetch that fails raises a record that fits; one that succeeds leaves pc inside memory, and the
instruction keeps the invariant. -/
theorem stepKeepsTheInvariant : Obligations.StepKeepsTheInvariant := by
  intro s t hinv ht
  by_cases hs : s.status = .running
  swap
  · cases (step_ended hs).symm.trans ht
    exact hinv
  rw [step_running hs] at ht
  rcases fetchInstr_cases s exec with ⟨-, -, e⟩ | ⟨b, hb, hn, -, e⟩ | ⟨op, n, hb, -, hcut, e⟩ |
    ⟨i, _, hb, -, hlen, e⟩
  · cases e.symm.trans ht
    exact hinv.raise (by decide) hinv.pc_le
  · cases e.symm.trans ht
    have hlt := (Memory.readByte_eq_some.1 hb).1
    exact (hinv.advance (n := 1) (by decide) hlt hlt).raise (by decide) (recordFits_decodeError hn)
  · cases e.symm.trans ht
    have hlt := (Memory.readByte_eq_some.1 hb).1
    obtain ⟨-, hformat, hroom⟩ := hcut.bounds
    have hadv := hinv.advance (hformat.le.trans op.format.length_bounds.2) hlt (by omega)
    exact hadv.raise (by decide) hadv.pc_le
  · have hlt := (Memory.readByte_eq_some.1 hb).1
    exact (exec_effect (e.symm.trans ht)).inv (hinv.advance i.opcode.format.length_bounds.2 hlt hlen) hs

/-! ### Reset and load -/

/-- The host's reset of a state with canonical memory meets the invariant, whatever else it held. -/
theorem State.hostReset_inv {s : State} (h : s.mem.wf) : s.hostReset.Inv :=
  ⟨h, Nat.zero_le _, by simp [State.reset], rfl, by simp [State.reset]⟩

/-- Settles O22: reset is the host's reset of itself. -/
theorem resetMeetsTheInvariant : Obligations.ResetMeetsTheInvariant :=
  State.hostReset_inv State.reset_mem_wf

/-- Settles O24: a loaded state is the host's reset of itself, its memory canonical. -/
theorem hostTransactionsGiveTheInvariant : Obligations.HostTransactionsGiveTheInvariant := by
  refine ⟨fun image s h => ?_, fun s h => State.hostReset_inv h.mem_wf⟩
  rw [← State.hostReset_of_load h]
  exact State.hostReset_inv (State.load_wf h)

end Sys2Proof.Machine
end

section
/-! SUPPORT. Runs (40_cycle.md section 4): what every step keeps a run keeps, and what two states share that every
step keeps, two runs share. -/

namespace Sys2Proof.Machine

/-! ### One run -/

/-- A reflexive and transitive relation between a state and its next is one between a run's start and its end. -/
theorem State.runFor_induction {R : State → State → Prop} (hrefl : ∀ s, R s s)
    (htrans : ∀ {s t u}, R s t → R t u → R s u) (hstep : ∀ {s t}, step s = .next t → R s t)
    {s t : State} {n : Nat} (h : s.runFor n = .next t) : R s t := by
  induction n generalizing s with
  | zero => cases h; exact hrefl _
  | succ n ih =>
    obtain ⟨u, hu, hn⟩ := step_of_runFor_succ h
    exact htrans (hstep hu) (ih hn)

/-- A step ends in a raised fault with nothing but pc and the record changed, or in the effect of one instruction,
or where it began. -/
theorem step_cases {s t : State} (h : step s = .next t) :
    t = s ∨ (∃ pc kind info, t = State.raise { s with pc := pc } kind info) ∨
      ∃ i pc, Effect i { s with pc := pc } t := by
  by_cases hs : s.status = .running
  · rw [step_running hs] at h
    rcases fetchInstr_cases s exec with ⟨-, -, e⟩ | ⟨_, -, -, -, e⟩ | ⟨_, _, -, -, -, e⟩ | ⟨i, _, -, -, -, e⟩
    · cases e.symm.trans h; exact .inr (.inl ⟨s.pc, _, _, rfl⟩)
    · cases e.symm.trans h; exact .inr (.inl ⟨_, _, _, rfl⟩)
    · cases e.symm.trans h; exact .inr (.inl ⟨_, _, _, rfl⟩)
    · exact .inr (.inr ⟨i, _, exec_effect (e.symm.trans h)⟩)
  · cases (step_ended hs).symm.trans h
    exact .inl rfl

/-- Writing a word keeps MEM_SIZE. -/
theorem Memory.size_writeWord {m m' : Memory} {a : Nat} {v : Word} (h : m.writeWord a v = some m') :
    m'.size = m.size := by
  obtain ⟨-, rfl⟩ := Memory.writeWord_eq_some.1 h
  rfl

theorem step_mem_size {s t : State} (h : step s = .next t) : t.mem.size = s.mem.size := by
  rcases step_cases h with rfl | ⟨_, _, _, rfl⟩ | ⟨i, _, eff⟩
  · rfl
  · rfl
  · rcases eff.mem_cases with e | ⟨_, _, _, -, e⟩
    · rw [e]
    · exact Memory.size_writeWord e

/-- Settles O52: no step changes MEM_SIZE. -/
theorem memSizeIsFixed : Obligations.MemSizeIsFixed := by
  intro s t n h
  exact State.runFor_induction (R := fun s t => t.mem.size = s.mem.size) (fun _ => rfl)
    (fun hst htu => htu.trans hst) step_mem_size h

/-- Settles O15: an ended state stays, so of two runs from one state the shorter ends where the longer does. -/
theorem runEndsInOneState : Obligations.RunEndsInOneState := by
  have stays : ∀ (s t : State) (n m : Nat), s.runFor n = .next t → t.status ≠ .running → n ≤ m →
      s.runFor m = .next t := by
    intro s t n m h ht hnm
    obtain ⟨d, rfl⟩ := Nat.exists_eq_add_of_le hnm
    rw [State.runFor_add d h, State.runFor_ended ht]
  refine ⟨fun s t u ⟨⟨n, hn⟩, ht⟩ ⟨⟨m, hm⟩, hu⟩ => ?_, stays⟩
  rcases Nat.le_total n m with h | h
  · exact Host.Outcome.next.inj ((stays s t n m hn ht h).symm.trans hm)
  · exact Host.Outcome.next.inj (hn.symm.trans (stays s u m n hm hu h))

/-! ### Two runs side by side -/

/-- A relation between states that agree on what a step's course depends on, kept by raising and by fetching. -/
structure Lockstep (Q : State → State → Prop) : Prop where
  mem : ∀ {s s'}, Q s s' → s'.mem = s.mem
  pc : ∀ {s s'}, Q s s' → s'.pc = s.pc
  status : ∀ {s s'}, Q s s' → s'.status = s.status
  raise : ∀ {s s'}, Q s s' → ∀ kind info, Q (s.raise kind info) (s'.raise kind info)
  setPc : ∀ {s s'}, Q s s' → ∀ pc, Q { s with pc := pc } { s' with pc := pc }
  exec : ∀ {s s'}, Q s s' → ∀ i, Alike Q (exec i s) (exec i s')

section

variable {Q : State → State → Prop} (hQ : Lockstep Q)

include hQ

theorem Lockstep.fetchByte {s s' : State} (h : Q s s') {k : Byte → State → Result}
    (hk : ∀ b {t t'}, Q t t' → Alike Q (k b t) (k b t')) : Alike Q (fetchByte s k) (fetchByte s' k) :=
  fetchByte_alike (hQ.mem h) (hQ.pc h) (hQ.raise h) fun b => hk b (hQ.setPc h _)

theorem Lockstep.fetchWord {s s' : State} (h : Q s s') {k : Word → State → Result}
    (hk : ∀ w {t t'}, Q t t' → Alike Q (k w t) (k w t')) : Alike Q (fetchWord s k) (fetchWord s' k) :=
  fetchWord_alike (hQ.mem h) (hQ.pc h) (hQ.raise h) fun w => hk w (hQ.setPc h _)

theorem Lockstep.fetchOperands {s s' : State} (h : Q s s') (l : Layout) :
    Alike Q (fetchOperands l s Machine.exec) (fetchOperands l s' Machine.exec) := by
  cases l with
  | n i => exact hQ.exec h i
  | r mk => exact hQ.fetchByte h fun _ _ _ h1 => hQ.exec h1 _
  | rr mk =>
    exact hQ.fetchByte h fun r _ _ h1 =>
      hQ.fetchByte h1 (k := fun q => Machine.exec (mk r q)) fun q _ _ h2 => hQ.exec h2 (mk r q)
  | rw mk =>
    exact hQ.fetchByte h fun r _ _ h1 =>
      hQ.fetchWord h1 (k := fun w => Machine.exec (mk r w)) fun w _ _ h2 => hQ.exec h2 (mk r w)
  | w mk => exact hQ.fetchWord h fun _ _ _ h1 => hQ.exec h1 _

theorem Lockstep.step {s s' : State} (h : Q s s') : Alike Q (step s) (step s') := by
  by_cases hs : s.status = .running
  · rw [step_running hs, step_running ((hQ.status h).trans hs)]
    refine hQ.fetchByte h fun b t t' ht => ?_
    cases decodeOpcode b with
    | none => exact .next (hQ.raise ht _ _)
    | some op => exact hQ.fetchOperands ht op.layout
  · rw [step_ended hs, step_ended (by rwa [hQ.status h])]
    exact .next h

theorem Lockstep.runFor {s s' : State} (h : Q s s') (n : Nat) : Alike Q (s.runFor n) (s'.runFor n) := by
  induction n generalizing s s' with
  | zero => exact .next h
  | succ n ih =>
    intro t ht
    obtain ⟨u, hu, hn⟩ := step_of_runFor_succ ht
    obtain ⟨u', hu', hQu⟩ := hQ.step h u hu
    rw [State.runFor_succ hu']
    exact ih hQu t hn

end

/-- A jump, taken or not: alike if the states it leads to are. -/
theorem jumpIf_alike {Q : State → State → Prop} {s s' : State} {taken : Bool} {a : Word}
    (hjump : Q (s.jumpTo a) (s'.jumpTo a)) (hstay : Q s s') :
    Alike Q (jumpIf taken a s) (jumpIf taken a s') := by
  cases taken with
  | true => exact .next hjump
  | false => exact .next hstay

/-! ### Stale stack entries -/

section

variable {s : State} {stack : Vector Word 256}
  (hlow : ∀ i : Fin 256, i.val < s.sp.val → stack[i] = s.stack[i])

include hlow

/-- The entry a push writes joins those that agree. -/
theorem sameButStale_push (v : Word) (h : s.sp.val < 256) :
    SameButStale { s with stack := s.stack.set s.sp.val v, sp := ⟨s.sp.val + 1, by omega⟩ }
      { s with stack := stack.set s.sp.val v, sp := ⟨s.sp.val + 1, by omega⟩ } := by
  refine ⟨rfl, fun i hi => ?_⟩
  by_cases hsp : i.val = s.sp.val
  · simp [hsp]
  · have hlt : i.val < s.sp.val := by simp only at hi; omega
    simpa [Ne.symm hsp] using hlow i hlt

/-- The entry a pop takes is one of those that agree, and those below it still do. -/
theorem sameButStale_pop (d : Fin 9) (h : 0 < s.sp.val) :
    SameButStale (State.writeReg { s with sp := ⟨s.sp.val - 1, by omega⟩ } d s.stack[s.sp.val - 1])
      (State.writeReg { s with sp := ⟨s.sp.val - 1, by omega⟩, stack := stack } d
        stack[s.sp.val - 1]) := by
  have htop : stack[s.sp.val - 1] = s.stack[s.sp.val - 1] :=
    hlow ⟨s.sp.val - 1, by omega⟩ (Nat.sub_lt h Nat.one_pos)
  rw [htop]
  exact ⟨rfl, fun i hi => hlow i (Nat.lt_of_lt_of_le hi (Nat.sub_le _ _))⟩

/-- Every instruction keeps stale entries apart from all else. -/
theorem exec_sameButStale (i : Instr) :
    Alike SameButStale (exec i s) (exec i { s with stack := stack }) := by
  have raised : ∀ kind info,
      SameButStale (s.raise kind info) (State.raise { s with stack := stack } kind info) :=
    fun _ _ => ⟨rfl, hlow⟩
  cases i with
  | nop | hlt => exact .next ⟨rfl, hlow⟩
  | jmp | jmpZ | jmpNZ => exact jumpIf_alike ⟨rfl, hlow⟩ ⟨rfl, hlow⟩
  | moveLit | print => exact withReg_alike raised fun _ _ => .next ⟨rfl, hlow⟩
  | moveReg | add | sub | mul | cmp | cmpNot | lt | gt =>
    exact withRegs_alike raised fun _ _ => .next ⟨rfl, hlow⟩
  | moveRegMem =>
    exact withReg_alike raised fun _ _ => loadWord_alike rfl raised fun _ => .next ⟨rfl, hlow⟩
  | moveMemReg => exact withReg_alike raised fun _ _ => storeWord_alike rfl raised fun _ => ⟨rfl, hlow⟩
  | pushLit w => exact push_alike rfl raised (sameButStale_push hlow w)
  | pushReg => exact withReg_alike raised fun _ _ => push_alike rfl raised (sameButStale_push hlow _)
  | pop =>
    exact withReg_alike raised fun d _ => pop_alike rfl raised fun h => .next (sameButStale_pop hlow d h)

end

/-- States that differ in stale entries alone, the second written as an update of the first. -/
theorem SameButStale.exists_stack {s s' : State} (h : SameButStale s s') :
    ∃ stack : Vector Word 256, s' = { s with stack := stack } ∧
      ∀ i : Fin 256, i.val < s.sp.val → stack[i] = s.stack[i] :=
  ⟨s'.stack, h⟩

theorem lockstep_sameButStale : Lockstep SameButStale where
  mem h := by rw [h.1]
  pc h := by rw [h.1]
  status h := by rw [h.1]
  raise h kind info := by
    obtain ⟨stack, rfl, hlow⟩ := h.exists_stack
    exact ⟨rfl, hlow⟩
  setPc h pc := by
    obtain ⟨stack, rfl, hlow⟩ := h.exists_stack
    exact ⟨rfl, hlow⟩
  exec h i := by
    obtain ⟨stack, rfl, hlow⟩ := h.exists_stack
    exact exec_sameButStale hlow i

/-- Settles O39: every step keeps stale entries apart from all else, and no observation holds one. -/
theorem staleStackIsUnobservable : Obligations.StaleStackIsUnobservable := by
  intro s s' t n h ht
  obtain ⟨t', ht', hsame⟩ := lockstep_sameButStale.runFor h n t ht
  refine ⟨t', ht', hsame, ?_⟩
  rw [hsame.1]
  rfl

/-! ### Events delivered before -/

/-- The second state differs from the first in events delivered before alone. -/
def SameButEarlier (earlier : List PrintEvent) (s s' : State) : Prop :=
  s' = { s with out := earlier ++ s.out }

/-- Every instruction goes the same way whatever was delivered before. -/
theorem exec_sameButEarlier (earlier : List PrintEvent) (s : State) (i : Instr) :
    Alike (SameButEarlier earlier) (exec i s) (exec i { s with out := earlier ++ s.out }) := by
  have raised : ∀ kind info, SameButEarlier earlier (s.raise kind info)
      (State.raise { s with out := earlier ++ s.out } kind info) := fun _ _ => rfl
  cases i with
  | nop | hlt => exact .next rfl
  | jmp | jmpZ | jmpNZ => exact jumpIf_alike rfl rfl
  | moveLit => exact withReg_alike raised fun _ _ => .next rfl
  | print =>
    exact withReg_alike raised fun _ _ =>
      .next (by simp only [SameButEarlier, State.emit, List.append_assoc]; rfl)
  | moveReg | add | sub | mul | cmp | cmpNot | lt | gt =>
    exact withRegs_alike raised fun _ _ => .next rfl
  | moveRegMem => exact withReg_alike raised fun _ _ => loadWord_alike rfl raised fun _ => .next rfl
  | moveMemReg => exact withReg_alike raised fun _ _ => storeWord_alike rfl raised fun _ => rfl
  | pushLit => exact push_alike rfl raised fun _ => rfl
  | pushReg => exact withReg_alike raised fun _ _ => push_alike rfl raised fun _ => rfl
  | pop => exact withReg_alike raised fun _ _ => pop_alike rfl raised fun _ => .next rfl

theorem lockstep_sameButEarlier (earlier : List PrintEvent) : Lockstep (SameButEarlier earlier) where
  mem h := by rw [h]
  pc h := by rw [h]
  status h := by rw [h]
  raise h kind info := by rw [h]; rfl
  setPc h pc := by rw [h]; rfl
  exec h i := h ▸ exec_sameButEarlier earlier _ i

/-- A step only adds events, at the end. -/
theorem step_out {s t : State} (h : step s = .next t) : ∃ more, t.out = s.out ++ more := by
  rcases step_cases h with rfl | ⟨_, _, _, rfl⟩ | ⟨i, _, eff⟩
  · exact ⟨[], (List.append_nil _).symm⟩
  · exact ⟨[], (List.append_nil _).symm⟩
  · rcases eff.out_cases with ⟨e, -⟩ | ⟨-, ev, -, e⟩
    · exact ⟨[], e.trans (List.append_nil _).symm⟩
    · exact ⟨[ev], e⟩

/-- A run only adds events, at the end. -/
theorem State.out_of_runFor {s t : State} {n : Nat} (h : s.runFor n = .next t) :
    ∃ more, t.out = s.out ++ more :=
  State.runFor_induction (R := fun s t => ∃ more, t.out = s.out ++ more)
    (fun _ => ⟨[], (List.append_nil _).symm⟩)
    (fun ⟨_, h₁⟩ ⟨_, h₂⟩ => ⟨_, by rw [h₂, h₁, List.append_assoc]⟩) step_out h

/-- Settles O41: a run adds events at the end, and every step goes the same way whatever was delivered before. -/
theorem sinkGivesNothingBack : Obligations.SinkGivesNothingBack := by
  intro s t earlier n h
  obtain ⟨more, hmore⟩ := State.out_of_runFor h
  refine ⟨⟨more, hmore.symm⟩, ?_⟩
  obtain ⟨u, hu, rfl⟩ := (lockstep_sameButEarlier earlier).runFor (s' := { s with out := earlier ++ s.out })
    rfl n t h
  exact hu

/-! ### A memory of zero bytes -/

theorem State.mem_size_of_load {image : List Byte} {s : State} (h : State.load image = .next s) :
    image.length ≤ 65536 ∧ s.mem.size.val = image.length := by
  simp only [State.load] at h
  split at h
  · rename_i hle
    cases h
    exact ⟨hle, rfl⟩
  · cases h

/-- The step raises OutOfBounds(pc), and changes nothing else, where no opcode byte can be fetched (R111). -/
theorem step_opcodeMissing {s : State} (hs : s.status = .running) (hout : s.mem.size.val ≤ s.pc.toNat) :
    step s = .next (s.raise .outOfBounds s.pc) := by
  rw [step_running hs, fetchInstr, fetchByte_out hout]

/-- Settles O27: each of the n bytes is a NOP's, and the next fetch is at the end of memory. -/
theorem zeroImageRunsOffTheEnd : Obligations.ZeroImageRunsOffTheEnd := by
  intro n s h
  obtain ⟨hn, hsize⟩ := State.mem_size_of_load h
  rw [List.length_replicate] at hn hsize
  have hrun : s.status = .running := haltedIsTerminal.2.2 _ s h
  have hpc (k : Nat) (hk : k ≤ n) : (BitVec.ofNat 17 k).toNat = k := by
    rw [BitVec.toNat_ofNat]; omega
  have nops (k : Nat) (hk : k ≤ n) : s.runFor k = .next { s with pc := BitVec.ofNat 17 k } := by
    induction k with
    | zero => rw [← show s.pc = BitVec.ofNat 17 0 from State.pc_of_load h, State.runFor_zero]
    | succ k ih =>
      have hbyte : s.mem.readByte (BitVec.ofNat 17 k).toNat = some 0x00 := by
        rw [hpc k (by omega), State.readByte_of_load h (by simpa using hk), List.getElem_replicate]
      have hstep := nopOnlyAdvancesPc.2 { s with pc := BitVec.ofNat 17 k } hrun hbyte
      rw [State.runFor_add 1 (ih (by omega)), State.runFor_succ hstep, State.runFor_zero]
      simp only [BitVec.ofNat_add]; rfl
  refine ⟨nops n le_rfl, ?_⟩
  have hout : s.mem.size.val ≤ (BitVec.ofNat 17 n).toNat := by rw [hpc n le_rfl, hsize]
  have hstep := step_opcodeMissing (s := { s with pc := BitVec.ofNat 17 n }) hrun hout
  rw [State.runFor_add 1 (nops n le_rfl), State.runFor_succ hstep]
  rfl

end Sys2Proof.Machine
end

section
/-! SUPPORT. Data movement, Print, jumps and comparisons on good operands (42_move.md, 45_print.md, 46_compare.md,
47_jump.md): what each completes with, and the store a later fetch sees (20_memory.md R67). -/

namespace Sys2Proof.Machine

/-! ### Data movement -/

/-- Settles O28: the rule of MoveLit on a named register. -/
theorem moveLitLoadsTheLiteral : Obligations.MoveLitLoadsTheLiteral := by
  intro s r d w hd
  exact ⟨_, exec_moveLit_named hd w s, by simp, onlyReg_writeReg d w s⟩

/-- Settles O30: both registers are named, and the first gets what the second holds. -/
theorem moveRegCopiesSecondToFirst : Obligations.MoveRegCopiesSecondToFirst := by
  intro s r1 r2 d x hd hx
  exact ⟨_, withRegs_named hd hx s _, by simp, onlyReg_writeReg d _ s⟩

/-- Settles O31: in bounds the word read is that of the two bytes there. -/
theorem moveRegMemLoadsTheWord : Obligations.MoveRegMemLoadsTheWord := by
  intro s r d a hd ha
  have hword : s.mem.readWord a.toNat = some _ := if_pos ha
  obtain ⟨lo, hi, hlo, hhi, hw⟩ := Memory.readWord_eq_some.1 hword
  refine ⟨_, lo, hi, (exec_moveRegMem_named hd a s).trans (loadWord_in hword _), hlo, hhi, ?_,
    onlyReg_writeReg d _ s⟩
  rw [State.readReg_writeReg, if_pos rfl, ← hw]
  rfl

/-- In bounds MoveMemReg on a named register completes with the register's word written. -/
theorem exec_moveMemReg_in {s : State} {r : Byte} {x : Fin 9} {a : Word} (hx : r.toNat = x.val)
    (ha : a.toNat + 1 < s.mem.size.val) :
    ∃ m, s.mem.writeWord a.toNat (s.readReg x) = some m ∧
      exec (.moveMemReg r a) s = .next { s with mem := m } :=
  have hstore := Memory.writeWord_eq_some.2 ⟨ha, rfl⟩
  ⟨_, hstore, (exec_moveMemReg_named hx a s).trans (storeWord_in hstore)⟩

/-- Settles O33: the rules of reading after a word is written. -/
theorem moveMemRegStoresTheWord : Obligations.MoveMemRegStoresTheWord := by
  intro s r x a hw hx ha
  obtain ⟨m, hm, e⟩ := exec_moveMemReg_in hx ha
  obtain ⟨hlo, hhi⟩ := Memory.readByte_written hw hm
  exact ⟨_, e, hlo, hhi, onlyMem_writeWord hw hm⟩

/-- Settles O53: the fetches read the memory that was written. -/
theorem storeIsSeenByTheNextFetch : Obligations.StoreIsSeenByTheNextFetch := by
  intro s t r x a k hw hx ha ht
  obtain ⟨m, hm, e⟩ := exec_moveMemReg_in hx ha
  cases e.symm.trans ht
  obtain ⟨hlo, hhi⟩ := Memory.readByte_written hw hm
  have hpc : (a.setWidth 17 : Pc).toNat = a.toNat := BitVec.toNat_setWidth_of_le (by decide)
  have hpc1 : (a.setWidth 17 + 1 : Pc).toNat = a.toNat + 1 := by
    have h := toNat_pc_add (s := { s with pc := a.setWidth 17 }) 1 (by decide)
      (hpc.trans_lt (Nat.lt_of_succ_lt ha))
    exact h.trans (congrArg (· + 1) hpc)
  refine ⟨fetchByte_of_readByte (by rwa [hpc]) k, ?_⟩
  refine (fetchByte_of_readByte (b := highByte (s.readReg x)) (by rwa [hpc1]) k).trans ?_
  rw [BitVec.add_assoc]
  rfl

/-! ### Print -/

theorem exec_print_named {r : Byte} {x : Fin 9} (hx : r.toNat = x.val) (s : State) :
    exec (.print r) s = .next (s.emit r (s.readReg x)) :=
  withReg_named hx s _

/-- Settles O40: the register is named, and one event joins the end. -/
theorem printEmitsOneEvent : Obligations.PrintEmitsOneEvent := by
  intro s r x hx
  exact ⟨_, exec_print_named hx s, rfl, fun _ => rfl, rfl, rfl, ⟨rfl, rfl⟩, fun _ => rfl, ⟨rfl, rfl, rfl⟩⟩

/-! ### Jumps -/

/-- Settles O46: zf is set or not, and each takes the jump in one of the two cases. -/
theorem oneConditionalJumpIsTaken : Obligations.OneConditionalJumpIsTaken := by
  intro s a
  rw [exec_jmpZ, exec_jmpNZ]
  cases s.zf with
  | true => exact .inl ⟨rfl, rfl⟩
  | false => exact .inr ⟨rfl, rfl⟩

/-! ### Comparisons -/

/-- Gt is Lt with its operands exchanged (46_compare.md R183). -/
theorem flagGt_eq_flagLt (v w : Word) : flagGt v w = flagLt w v := rfl

/-- On good registers a comparison overwrites zf with its flag of the values they hold, and does nothing else. -/
theorem intoZf_valid {r q : Byte} (hr : ValidReg r) (hq : ValidReg q) (flag : Word → Word → Bool) (s : State) :
    intoZf flag r q s = .next (s.setZf (flag (s.readReg ⟨r.toNat, Nat.lt_succ_of_le hr⟩)
      (s.readReg ⟨q.toNat, Nat.lt_succ_of_le hq⟩))) :=
  withRegs_valid hr hq s _

/-- A well-formed comparison overwrites zf and does nothing else. -/
theorem exec_compare_next {i : Instr} (hi : i.opcode ∈ [.cmp, .cmpNot, .lt, .gt]) (hw : i.WellFormed)
    (s : State) : ∃ b, exec i s = .next (s.setZf b) := by
  cases i with
  | cmp r q | cmpNot r q | lt r q | gt r q =>
    exact ⟨_, intoZf_valid (hw r (by simp [Instr.regOperands])) (hw q (by simp [Instr.regOperands])) _ s⟩
  | nop | hlt | moveLit | moveReg | moveRegMem | moveMemReg | add | sub | mul | pushLit | pushReg
  | pop | print | jmp | jmpZ | jmpNZ => simp [Instr.opcode] at hi

theorem execAll_cons {i : Instr} {s t : State} (h : exec i s = .next t) (is : List Instr) :
    execAll (i :: is) s = execAll is t := by
  simp only [execAll, h]

theorem execAll_singleton (i : Instr) (s : State) : execAll [i] s = exec i s := by
  obtain ⟨t, ht⟩ := exec_answersNext i s
  rw [execAll_cons ht, ht, execAll]

/-- Settles O43: the flags exchanged, and the second comparison answering the same whatever zf holds. -/
theorem comparisonsDoNotAccumulate : Obligations.ComparisonsDoNotAccumulate := by
  refine ⟨fun s r1 r2 h1 h2 => ?_, fun s i j hi hj hwi hwj => ?_⟩
  · refine (intoZf_valid h1 h2 flagGt s).trans ?_
    rw [flagGt_eq_flagLt]
    exact (intoZf_valid h2 h1 flagLt s).symm
  · obtain ⟨b, e⟩ := exec_compare_next hi hwi s
    rw [execAll_cons e, execAll_singleton, exec_compare_setZf hj hwj]

end Sys2Proof.Machine
end

section
/-! SUPPORT. The value stack (44_stack.md R160 to R164): a push and a pop on good registers, and a run of pushes
undone by as many pops. -/

namespace Sys2Proof.Machine

/-! ### One push, one pop -/

theorem push_in {s : State} (h : s.sp.val < 256) (v : Word) :
    push v s =
      .next { s with stack := s.stack.set s.sp.val v, sp := ⟨s.sp.val + 1, by omega⟩ } := by
  rcases push_cases v s with ⟨_, e⟩ | ⟨hfull, -⟩
  · exact e
  · omega

theorem pop_in {s : State} (h : 0 < s.sp.val) (k : Word → State → Result) :
    pop s k = k s.stack[s.sp.val - 1] { s with sp := ⟨s.sp.val - 1, by omega⟩ } := by
  rcases pop_cases s k with ⟨_, e⟩ | ⟨hempty, -⟩
  · exact e
  · omega

/-- A push with room stores its value in the entry sp was at, counts, and does nothing else. -/
theorem push_completes {s : State} (h : s.sp.val < 256) (v : Word) :
    ∃ t, push v s = .next t ∧ t.sp.val = s.sp.val + 1 ∧ t.stack[s.sp.val] = v ∧
      (∀ k : Fin 256, k.val ≠ s.sp.val → t.stack[k] = s.stack[k]) ∧ OnlyStack s t :=
  ⟨_, push_in h v, rfl, by simp, fun k hk => by simp [Ne.symm hk],
    fun _ => rfl, rfl, rfl, fun _ => rfl, ⟨rfl, rfl, rfl⟩, rfl⟩

/-- Settles O36: the rule of a push, the register being named. -/
theorem pushStoresOnTop : Obligations.PushStoresOnTop := by
  intro s w r x h hx
  obtain ⟨t, ht, hpush⟩ := push_completes h (s.readReg x)
  exact ⟨push_completes h w, t, (withReg_named hx s _).trans ht, hpush⟩

theorem exec_pop_named {s : State} {r : Byte} {d : Fin 9} (hd : r.toNat = d.val) (h : 0 < s.sp.val) :
    exec (.pop r) s = .next
      (State.writeReg { s with sp := ⟨s.sp.val - 1, by omega⟩ } d s.stack[s.sp.val - 1]) :=
  (withReg_named hd s _).trans (pop_in h _)

/-- Settles O37: the rule of a pop, the register being named. -/
theorem popTakesFromTheTop : Obligations.PopTakesFromTheTop := by
  intro s r d h hd
  refine ⟨_, exec_pop_named hd h, by simp, Nat.sub_add_cancel h, rfl, fun i hi => ?_, rfl, rfl,
    fun _ => rfl, ⟨rfl, rfl, rfl⟩, rfl⟩
  exact (State.readReg_writeReg _ d i _).trans (if_neg hi)

/-! ### Pushes and as many pops -/

theorem execAll_append {is js : List Instr} {s t : State} (h : execAll is s = .next t) :
    execAll (is ++ js) s = execAll js t := by
  induction is generalizing s with
  | nil => cases h; rfl
  | cons i is ih =>
    obtain ⟨u, hu⟩ := exec_answersNext i s
    rw [execAll_cons hu] at h
    rw [List.cons_append, execAll_cons hu, ih h]

/-- A Pop into R0 and a Print of it deliver the top of the stack, and lower sp by one. -/
theorem execAll_pop_print {s : State} (h : 0 < s.sp.val) :
    ∃ t, execAll [.pop 0, .print 0] s = .next t ∧
      t.out = s.out ++ [{ index := 0, value := s.stack[s.sp.val - 1] }] ∧
      t.sp.val + 1 = s.sp.val ∧ t.status = s.status ∧ t.stack = s.stack := by
  have hr : (0 : Byte).toNat = (0 : Fin 9).val := rfl
  exact ⟨_, (execAll_cons (exec_pop_named hr h) _).trans
    ((execAll_singleton _ _).trans (exec_print_named hr _)), by simp, Nat.sub_add_cancel h, rfl, rfl⟩

/-- The last of `n + 1` repetitions taken off. -/
theorem flatten_replicate_succ {α : Type} (n : Nat) (l : List α) :
    (List.replicate (n + 1) l).flatten = (List.replicate n l).flatten ++ l := by
  rw [List.replicate_succ', List.flatten_append, List.flatten_singleton]

/-- Pushes and as many pops, each printed: the first value pushed is the last popped. -/
theorem execAll_pushes_pops (ws : List Word) (s : State) (h : s.sp.val + ws.length ≤ 256) :
    ∃ t, execAll (ws.map Instr.pushLit ++
        (List.replicate ws.length [Instr.pop 0, Instr.print 0]).flatten) s = .next t ∧
      t.out = s.out ++ ws.reverse.map (fun w => { index := 0, value := w }) ∧
      t.sp = s.sp ∧ t.status = s.status ∧
      ∀ k : Fin 256, k.val < s.sp.val → t.stack[k] = s.stack[k] := by
  induction ws generalizing s with
  | nil => exact ⟨s, rfl, by simp, rfl, rfl, fun _ _ => rfl⟩
  | cons w ws ih =>
    rw [List.length_cons] at h
    have hroom : s.sp.val < 256 := by omega
    obtain ⟨s₁, hpush, hsp₁, htop₁, hlow₁, -, -, -, -, ⟨hst₁, -, -⟩, hout₁⟩ := push_completes hroom w
    obtain ⟨s₂, hrest, hout₂, hsp₂, hst₂, hlow₂⟩ := ih s₁ (by omega)
    have hsp : s₂.sp.val = s.sp.val + 1 := by rw [hsp₂, hsp₁]
    obtain ⟨t, hpop, hout, hspt, hst, hstack⟩ := execAll_pop_print (s := s₂) (by omega)
    have htop : s₂.stack[s₂.sp.val - 1] = w := by
      simp only [hsp, Nat.add_sub_cancel]
      exact (hlow₂ ⟨s.sp.val, hroom⟩ (by rw [hsp₁]; exact Nat.lt_succ_self _)).trans htop₁
    refine ⟨t, ?_, ?_, Fin.ext (by omega), by rw [hst, hst₂, hst₁], fun k hk => ?_⟩
    · rw [List.map_cons, List.cons_append, execAll_cons (i := .pushLit w) hpush, List.length_cons,
        flatten_replicate_succ, ← List.append_assoc, execAll_append hrest, hpop]
    · rw [hout, htop, hout₂, hout₁]
      simp
    · rw [hstack, hlow₂ k (by omega), hlow₁ k (by omega)]

/-- Settles O38: pushes undone by as many pops, and the rule of a pop of an empty stack. -/
theorem popsReturnPushesInReverse : Obligations.PopsReturnPushesInReverse := by
  refine ⟨fun s ws h => execAll_pushes_pops ws s h, fun s r hr h => ?_⟩
  exact ⟨_, (withReg_valid hr s _).trans (pop_empty h _), rfl, rfl, rfl, rfl⟩

end Sys2Proof.Machine
end

section
/-! SUPPORT. Which registers an instruction writes and reads (10_state.md R22). -/

namespace Sys2Proof.Machine

/-- The second state differs from the first in registers alone, and not in the one that `i` writes, unless it
raised. -/
def SameWrite (i : Instr) (t u : State) : Prop :=
  u = { t with regs := u.regs } ∧
    (t.status ≠ .faulted → ∀ k : Fin 9, i.writesReg.map BitVec.toNat = some k.val →
      u.readReg k = t.readReg k)

section

variable {i : Instr} {s : State} {regs : Vector Word 9}

/-- Both write the same value to the register that `i` names. -/
theorem sameWrite_writeReg {r : Byte} {d : Fin 9} {v v' : Word} (hw : i.writesReg = some r)
    (hd : r.toNat = d.val) (hv : v' = v) :
    SameWrite i (s.writeReg d v) (State.writeReg { s with regs := regs } d v') := by
  refine ⟨by rw [hv]; rfl, fun _ k hk => ?_⟩
  rw [hw, Option.map_some, Option.some.injEq, hd] at hk
  simp [hv, Fin.ext hk.symm]

/-- Where `i` writes no register, it is enough that nothing else differs. -/
theorem sameWrite_none {t u : State} (hw : i.writesReg = none) (h : u = { t with regs := u.regs }) :
    SameWrite i t u :=
  ⟨h, fun _ k hk => by simp [hw] at hk⟩

/-- States whose registers agree where `i` reads go the same way, and `i` writes the same value. -/
theorem exec_sameWrite
    (hread : ∀ r ∈ i.readsRegs, ∀ k : Fin 9, r.toNat = k.val → regs[k] = s.readReg k) :
    Alike (SameWrite i) (exec i s) (exec i { s with regs := regs }) := by
  have raised : ∀ kind info,
      SameWrite i (s.raise kind info) (State.raise { s with regs := regs } kind info) :=
    fun _ _ => ⟨rfl, fun h => absurd rfl h⟩
  have read : ∀ r ∈ i.readsRegs, ∀ x : Fin 9, r.toNat = x.val →
      State.readReg { s with regs := regs } x = s.readReg x := hread
  cases i with
  | nop | hlt => exact .next (sameWrite_none rfl rfl)
  | jmp | jmpZ | jmpNZ => exact jumpIf_alike (sameWrite_none rfl rfl) (sameWrite_none rfl rfl)
  | moveLit r w => exact withReg_alike raised fun d hd => .next (sameWrite_writeReg rfl hd rfl)
  | moveReg r q =>
    exact withReg_alike raised fun d hd => withReg_alike raised fun x hx =>
      .next (sameWrite_writeReg rfl hd (read q (by simp [Instr.readsRegs]) x hx))
  | moveRegMem r a =>
    exact withReg_alike raised fun d hd => loadWord_alike rfl raised fun v =>
      .next (sameWrite_writeReg rfl hd rfl)
  | add r q | sub r q | mul r q =>
    exact withReg_alike raised fun x hx => withReg_alike raised fun y hy =>
      .next (sameWrite_writeReg (r := 8) (d := 8) rfl rfl
        (congrArg₂ _ (read r (by simp [Instr.readsRegs]) x hx) (read q (by simp [Instr.readsRegs]) y hy)))
  | pop r =>
    exact withReg_alike raised fun d hd => pop_alike rfl raised fun h =>
      .next (sameWrite_writeReg (s := { s with sp := ⟨s.sp.val - 1, by omega⟩ }) rfl hd rfl)
  | cmp r q | cmpNot r q | lt r q | gt r q =>
    refine withReg_alike raised fun x hx => withReg_alike raised fun y hy =>
      .next (sameWrite_none rfl ?_)
    rw [read r (by simp [Instr.readsRegs]) x hx, read q (by simp [Instr.readsRegs]) y hy]
    rfl
  | print r =>
    refine withReg_alike raised fun x hx => .next (sameWrite_none rfl ?_)
    rw [read r (by simp [Instr.readsRegs]) x hx]
    rfl
  | moveMemReg r a =>
    refine withReg_alike raised fun x hx => ?_
    rw [read r (by simp [Instr.readsRegs]) x hx]
    exact storeWord_alike rfl raised fun _ => sameWrite_none rfl rfl
  | pushLit w => exact push_alike rfl raised fun _ => sameWrite_none rfl rfl
  | pushReg r =>
    refine withReg_alike raised fun x hx => ?_
    rw [read r (by simp [Instr.readsRegs]) x hx]
    exact push_alike rfl raised fun _ => sameWrite_none rfl rfl

end

/-- Settles O48: the effect of an instruction on registers, and two states side by side. -/
theorem registersWrittenAndRead : Obligations.RegistersWrittenAndRead :=
  ⟨fun _ _ _ k h hk => (exec_effect h).readReg_eq k hk,
    fun _ _ t _ _ hread h => exec_sameWrite hread t h⟩

end Sys2Proof.Machine
end

section
/-! SUPPORT. Faults' records, the accessors' bounds and the host's transactions. -/

namespace Sys2Proof.Machine

/-- Settles O21: `State.raise` writes the record and status, and the codes are as listed. -/
theorem raiseWritesTheRecord : Obligations.RaiseWritesTheRecord :=
  ⟨fun _ _ _ => ⟨rfl, rfl, rfl, rfl⟩, rfl⟩

/-- An access guarded by a bound fails exactly at or past it. -/
theorem ite_lt_some_eq_none_iff {α : Type} {a n : Nat} {x : α} :
    (if a < n then some x else none) = none ↔ n ≤ a := by
  rw [ite_eq_right_iff]
  exact ⟨fun h => Nat.le_of_not_lt fun hlt => (nomatch h hlt), fun h hlt => absurd hlt (Nat.not_lt.2 h)⟩

/-- Settles O51: each accessor's guard; the bound at 0xFFFF is past every MEM_SIZE. -/
theorem accessBounds : Obligations.AccessBounds := by
  intro m a b w
  have hmax : m.size.val ≤ 0xFFFF + 1 := Nat.le_of_lt_succ m.size.isLt
  exact ⟨ite_lt_some_eq_none_iff, ite_lt_some_eq_none_iff, ite_lt_some_eq_none_iff,
    ite_lt_some_eq_none_iff, ite_lt_some_eq_none_iff.2 hmax, ite_lt_some_eq_none_iff.2 hmax⟩

theorem State.readReg_reset (i : Fin 9) : State.reset.readReg i = 0 := by
  simp [State.readReg, State.reset]

theorem State.stack_reset (i : Fin 256) : State.reset.stack[i] = 0 := by
  simp [State.reset]

/-- Settles O55: every field but memory is `State.reset`'s, whose registers and stack entries are all 0. -/
theorem resetValues : Obligations.ResetValues := by
  intro s
  exact ⟨rfl, State.readReg_reset, rfl, rfl, State.stack_reset, rfl, rfl, rfl, rfl, rfl, rfl, rfl⟩

/-- The bytes of a loaded image are what `dump` gives (20_memory.md R63, R64). -/
theorem State.dump_of_load {image : List Byte} {s : State} (h : State.load image = .next s) :
    s.dump = image := by
  obtain ⟨-, hsize⟩ := State.mem_size_of_load h
  refine List.ext_getElem (by simp [State.dump, hsize]) fun k _ hk => ?_
  have hbyte := (Memory.readByte_eq_some.1 (State.readByte_of_load h hk)).2
  simpa [State.dump] using hbyte

/-- Settles O56: a load of an image that fits answers a reset state but for its memory, and `dump` reads it back. -/
theorem loadThenDumpGivesTheImage : Obligations.LoadThenDumpGivesTheImage := by
  refine ⟨fun image h => ?_, fun image h => dif_neg (Nat.not_le.2 h)⟩
  obtain ⟨s, hs⟩ : ∃ s, State.load image = .next s := ⟨_, dif_pos h⟩
  exact ⟨s, hs, State.dump_of_load hs, (State.mem_size_of_load hs).2, (State.hostReset_of_load hs).symm⟩

end Sys2Proof.Machine
end
